-- ==== Sys2Proof/Word.lean ====
section
/-! DEFINITION. The value types of the block: bits, symbols, command words, status codes and error positions
(spec/10_state.md R11, R12; spec/00_scope.md section 5, "Widths"). -/

namespace Sys2Proof

/-- A bit; `true` is 1 (00_scope.md section 5: "as a bit, T is 1 and F is 0"). -/
abbrev Bit := Bool

/-- A BitVector of the spec: an ordered sequence of bits, element 0 the first bit (R11, R41). -/
abbrev Bits := List Bit

/-- An 8-bit symbol, unsigned (R12). -/
abbrev Symbol := BitVec 8

/-- A symbol sequence (R12). -/
abbrev Symbols := List Symbol

/-- A command word, 4 bits (R60). -/
abbrev Command := BitVec 4

/-- A result code in STATUS, 3 bits (R24, R68). -/
abbrev StatusCode := BitVec 3

/-- An error position, 3 bits, 0 for none and 1 to 4 for a data bit (R66). -/
abbrev ErrorPos := BitVec 3

end Sys2Proof
end

