-- ==== Sys2Proof/Syntax.lean ====
section
/-! DEFINITION. The eleven operations of the block (spec/30_encoding.md R61, spec/opcode_table.json). An operation has no
operand fields: its sources and destinations are fixed (R60). -/

namespace Sys2Proof

/-- The operations, in the order of the table of R61. -/
inductive Instr where
  /-- 0x1 HAM.DECBLK (R91) -/
  | hamDecblk
  /-- 0x2 HAM.DEC (R92) -/
  | hamDec
  /-- 0x3 BP.PACK (R111) -/
  | bpPack
  /-- 0x4 BP.UNPACK (R113) -/
  | bpUnpack
  /-- 0x5 SC.ENC (R121) -/
  | scEnc
  /-- 0x6 SC.DEC (R122) -/
  | scDec
  /-- 0x7 HUF.FREQ (R132) -/
  | hufFreq
  /-- 0x8 HUF.TREE (R139) -/
  | hufTree
  /-- 0x9 HUF.CODES (R142) -/
  | hufCodes
  /-- 0xA HUF.ENC (R144) -/
  | hufEnc
  /-- 0xB HUF.DEC (R162) -/
  | hufDec
deriving DecidableEq, Repr

end Sys2Proof
end

