-- ==== Sys2Proof/WellFormed.lean ====
section
/-! DEFINITION. What is well formed among instructions and command words. An operation has no field that could be
ill formed (spec/30_encoding.md R60); a command word can be reserved (R62). -/

namespace Sys2Proof

/-- Every operation is well formed: "there are no operand fields, no immediates, no register specifiers and no
modifiers" (R60). Written constructor by constructor, so that a new operation has to say so. -/
def Instr.wf : Instr → Bool
  | .hamDecblk => true
  | .hamDec => true
  | .bpPack => true
  | .bpUnpack => true
  | .scEnc => true
  | .scDec => true
  | .hufFreq => true
  | .hufTree => true
  | .hufCodes => true
  | .hufEnc => true
  | .hufDec => true

/-- A command word is well formed when it is none of the reserved codes 0x0, 0xC, 0xD, 0xE, 0xF (R62). -/
def Command.wf (c : Command) : Bool :=
  !(c == 0x0 || c == 0xC || c == 0xD || c == 0xE || c == 0xF)

end Sys2Proof
end

