-- ==== Sys2Proof/Decode.lean ====
section
/-! DEFINITION. From command words to operations and back (spec/30_encoding.md R60 to R62). -/

namespace Sys2Proof

/-- Why a command word is no operation. -/
inductive DecodeError where
  /-- The code is reserved (R62). -/
  | reserved (c : Command)
deriving DecidableEq, Repr

/-- The operation a command word names, read from the binary column of the table of R61; reserved codes are rejected by
name (R62). Total on the sixteen words. -/
def decode (c : Command) : Except DecodeError Instr :=
  match c with
  | 0b0001#4 => .ok .hamDecblk
  | 0b0010#4 => .ok .hamDec
  | 0b0011#4 => .ok .bpPack
  | 0b0100#4 => .ok .bpUnpack
  | 0b0101#4 => .ok .scEnc
  | 0b0110#4 => .ok .scDec
  | 0b0111#4 => .ok .hufFreq
  | 0b1000#4 => .ok .hufTree
  | 0b1001#4 => .ok .hufCodes
  | 0b1010#4 => .ok .hufEnc
  | 0b1011#4 => .ok .hufDec
  | reservedCode => .error (.reserved reservedCode)

/-- The command word of an operation, from the op column of the table of R61. -/
def encode : Instr → Command
  | .hamDecblk => 0x1
  | .hamDec => 0x2
  | .bpPack => 0x3
  | .bpUnpack => 0x4
  | .scEnc => 0x5
  | .scDec => 0x6
  | .hufFreq => 0x7
  | .hufTree => 0x8
  | .hufCodes => 0x9
  | .hufEnc => 0xA
  | .hufDec => 0xB

/-- The command word that the table's bits `w` of `nbits` bits stand for: the word is 4 bits (R60), so a number that does
not fit them, or does not fit the row's own `nbits`, stands for none. DESIGN CHOICE, safe: a command word laid out in a
whole byte has zeros above bit 3 (log 12). -/
def commandOfTableWord (nbits w : Nat) : Option Command :=
  if w < 2 ^ nbits ∧ w < 16 then some (BitVec.ofNat 4 w) else none

/-- The operation the decoder reads from a word numbered as spec/opcode_table.json numbers it. -/
def decodeTableWord (nbits w : Nat) : Option Instr :=
  match commandOfTableWord nbits w with
  | none => none
  | some c =>
    match decode c with
    | .ok i => some i
    | .error _ => none

end Sys2Proof
end

