-- ==== Sys2Proof/Config.lean ====
section
/-! DEFINITION. What an implementation fixes, the three open capacities (spec/00_scope.md R3), and the free values of the model.
The four constants of R2 (7-bit blocks, 4 data bits, 8-bit symbols, 256 symbols) stand as literals where they are used: "no mode
or option changes them". -/

namespace Sys2Proof

/-- The three capacities an implementation fixes (R3); `none` is unbounded, which R3 allows a model to take. -/
structure Capacities where
  /-- MAXBITS, the largest number of bits a bit buffer holds -/
  maxBits : Option Nat
  /-- MAXSYMS, the largest number of symbols a symbol buffer holds -/
  maxSyms : Option Nat
  /-- CNT_W, the width in bits of a frequency count -/
  cntW : Option Nat
deriving DecidableEq, Repr

/-- All three capacities unbounded: "sequences as lists, counts as natural numbers" (R3). -/
def Capacities.unbounded : Capacities := { maxBits := none, maxSyms := none, cntW := none }

/-- FREE VALUE, safe: the bit the random-bit source answers to draw number `n` where `State.source` gives none. The spec takes
the drawn bits "as a free input of the SC.ENC step ... under no law" (spec/10_state.md R27, D18). No body: nothing can be
proved of it (log 5). -/
opaque Config.freeBit : Nat → Bit

end Sys2Proof
end

