-- ==== Sys2Proof/Machine/State.lean ====
section
/-! DEFINITION. The state of the block and of the two agents around it (spec/10_state.md R10 to R30), the host's actions
(spec/20_memory.md R54, spec/30_encoding.md R75, R76), the reasons a step can stop, and the state after reset. -/

namespace Sys2Proof.Machine

/-- A FrequencyTable: one count for each symbol value 0 to 255 (R19). Entry `v` is the count of symbol `v`. -/
abbrev FreqTable := Vector Nat 256

/-- A CodeTable: for each symbol value 0 to 255, absent or a code string (R21, R72). -/
abbrev CodeTable := Vector (Option Bits) 256

/-- A HuffmanNode: "Leaf{symbol, frequency} or Internal{frequency, left, right}" (R20). Sharing and cycles cannot be written. -/
inductive HuffmanNode where
  | leaf (symbol : Symbol) (frequency : Nat)
  | internal (frequency : Nat) (left right : HuffmanNode)
deriving DecidableEq, Repr

/-- The ten data elements of R13, each with its own "holds a value" mark. -/
inductive Element where
  | bin0 | bin1 | sin | bout0 | bout1 | sout | epos | ft | tree | ct
deriving DecidableEq, Repr

/-- What the host may read (R54). `ftOrder` is the view `FT.order` of R131, which "exists for the host". CMD is write-only (R22)
and BIN0, BIN1 and SIN are not among the elements R54 lets the host read (log 8). -/
inductive Readable where
  | bout0 | bout1 | sout | epos | ft | ftOrder | tree | ct | status | busy
  | mark (e : Element)
deriving DecidableEq, Repr

/-- A value the host has read. -/
inductive ReadValue where
  | bits (b : Bits)
  | syms (l : Symbols)
  | positions (l : List ErrorPos)
  | counts (t : FreqTable)
  | tree (t : HuffmanNode)
  | codes (t : CodeTable)
  | status (c : StatusCode)
  | flag (b : Bit)
deriving DecidableEq, Repr

/-- A bit operand buffer, a destination of MOV (R76). -/
inductive BitOperand where
  | bin0 | bin1
deriving DecidableEq, Repr

/-- A bit result buffer, a source of MOV (R76). -/
inductive BitResult where
  | bout0 | bout1
deriving DecidableEq, Repr

/-- One action of the host (R54, R75, R76, R200). The host "has no other way to act on the block" (R54). -/
inductive HostAction where
  /-- `WR BIN0, b` -/
  | wrBin0 (b : Bits)
  /-- `WR BIN1, b` -/
  | wrBin1 (b : Bits)
  /-- `WR SIN, l` -/
  | wrSin (l : Symbols)
  /-- `WR FT, t`: the 256 counts -/
  | wrFt (t : FreqTable)
  /-- `WR TREE, t` -/
  | wrTree (t : HuffmanNode)
  /-- `WR CT, t` -/
  | wrCt (t : CodeTable)
  /-- a write of the code `c` to CMD: a mnemonic line, or `WR CMD, c` -/
  | wrCmd (c : Command)
  /-- the rest of HUF.BUILD and HUF.COMPRESS: write `c` to CMD unless STATUS is not 0 ("stopping at the first one whose
  STATUS is not 0", R76) -/
  | wrCmdIfOk (c : Command)
  /-- `RD r` -/
  | rd (r : Readable)
  /-- `MOV dst, src` on bit buffers -/
  | movBits (dst : BitOperand) (src : BitResult)
  /-- `MOV SIN, SOUT` -/
  | movSyms
  /-- the pseudo-operation HUF.BUILD -/
  | hufBuild
  /-- the pseudo-operation HUF.COMPRESS -/
  | hufCompress
  /-- reset, "an input of the block outside the command set" (R200) -/
  | reset
deriving DecidableEq, Repr

/-- The whole state. The first thirteen fields are the elements of R10, a data element's mark being `isSome` (R13, log 2); the
last five are the model's own: the capacities and the two agents around the block (log 1, 4, 5, 8). -/
structure State where
  /-- BIN0, bit operand 0 (R14) -/
  bin0 : Option Bits
  /-- BIN1, bit operand 1 (R14) -/
  bin1 : Option Bits
  /-- SIN, symbol operand (R15) -/
  sin : Option Symbols
  /-- BOUT0, bit result 0 (R16) -/
  bout0 : Option Bits
  /-- BOUT1, bit result 1 (R16) -/
  bout1 : Option Bits
  /-- SOUT, symbol result (R17) -/
  sout : Option Symbols
  /-- EPOS, one error position for each decoded block (R18) -/
  epos : Option (List ErrorPos)
  /-- FT, the frequency table (R19) -/
  ft : Option FreqTable
  /-- TREE, the root of the Huffman tree (R20) -/
  tree : Option HuffmanNode
  /-- CT, the code table (R21) -/
  ct : Option CodeTable
  /-- CMD: the code on the port while the sequencer takes it, otherwise none, since "CMD keeps no value" (R22, log 6) -/
  cmd : Option Command
  /-- BUSY: 1 from the issue of an operation until its completion (R23) -/
  busy : Bit
  /-- STATUS: result code of the last completed operation (R24) -/
  status : StatusCode
  /-- MAXBITS, MAXSYMS, CNT_W: parameters of the implementation, changed by no step (R3) -/
  caps : Capacities
  /-- bits given to the random-bit source, answered first to last (R27) -/
  source : Bits
  /-- how many bits have been drawn; numbers the free bits after `source` -/
  drawn : Nat
  /-- the host's actions still to be performed, the next one first (R75) -/
  program : List HostAction
  /-- what the host has read, the oldest first -/
  reads : List (Readable × ReadValue)
deriving DecidableEq, Repr

/-- Faults: none. The spec knows no event that stops the block: every error is a result in STATUS after which the block is
idle (spec/60_exceptions.md R170, R180), and a situation without meaning is a refusal (log 13). -/
inductive Fault where
deriving DecidableEq, Repr

/-- Why a step has no meaning. All are safe: the spec asks the model to refuse each of them (U1 to U5). -/
inductive Refusal where
  /-- An instruction without a meaning yet; raised only by an arm of `exec`. Safe. -/
  | notModelled (mnemonic : String)
  /-- An operation was issued while its source `e` holds no value (U1, R31); raised by the operand forms. Safe. -/
  | sourceHoldsNoValue (e : Element)
  /-- The host read the element `e`, which holds no value (U2, R13); raised by host reads. Safe. -/
  | readHoldsNoValue (e : Element)
  /-- The host wrote a TREE with two leaves of one symbol (U3, R20); raised by host writes. Safe. -/
  | treeRepeatsSymbol
  /-- The host wrote a CT with an entry that is empty or longer than 255 bits (U3, R21); raised by host writes. Safe. -/
  | codeEntryIllegal
  /-- An operand, a result, a written value or a count exceeds a capacity (U4, R53); raised by the operand forms, by the
  completion of an operation and by host writes. Safe. -/
  | overCapacity (e : Element)
  /-- The host acts while BUSY is 1 (U5, R203); raised by host actions. Safe. -/
  | hostActsWhileBusy
deriving DecidableEq, Repr

/-- The three outcomes of a step on this machine. -/
abbrev Result := Host.Outcome State Fault Refusal

/-- The state after reset: BUSY 0, STATUS 0, no element holds a value, nothing on CMD (R30, R200). The last five fields are
the model's own and their values DESIGN CHOICEs (log 1, 4, 5, 8). -/
def State.reset : State where
  bin0 := none
  bin1 := none
  sin := none
  bout0 := none
  bout1 := none
  sout := none
  epos := none
  ft := none
  tree := none
  ct := none
  cmd := none
  busy := false
  status := 0
  caps := Capacities.unbounded
  source := []
  drawn := 0
  program := []
  reads := []

end Sys2Proof.Machine
end

