-- ==== Sys2Proof/Machine/Flags.lean ====
section
/-! DEFINITION. The error results and their STATUS codes (spec/60_exceptions.md R170, spec/30_encoding.md R68). The block has no
condition codes, carry, overflow, zero or sign flags (spec/10_state.md R26), so there is no other flag computation. -/

namespace Sys2Proof.Machine

/-- The seven error results (R170). -/
inductive OpError where
  /-- operand length not 7, or not a multiple of 7 (R171) -/
  | incompleteBlock
  /-- cipher operands of unequal length (R172) -/
  | lengthMismatch
  /-- a symbol of SIN has no entry in CT (R173) -/
  | unknownSymbol
  /-- input ends part-way through a code (R174) -/
  | truncatedStream
  /-- all 256 counts are 0 (R175) -/
  | emptyAlphabet
  /-- a 1 bit with a single-Leaf tree (R176) -/
  | invalidCode
  /-- a reserved command code (R177) -/
  | illegalOp
deriving DecidableEq, Repr

/-- The STATUS code of success (R68). -/
def statusOk : StatusCode := 0

/-- The STATUS code of an error (R68). -/
def OpError.code : OpError → StatusCode
  | .incompleteBlock => 1
  | .lengthMismatch => 2
  | .unknownSymbol => 3
  | .truncatedStream => 4
  | .emptyAlphabet => 5
  | .invalidCode => 6
  | .illegalOp => 7

end Sys2Proof.Machine
end

