-- ==== Sys2Proof/Machine/Ops.lean ====
section
/-! DEFINITION. The named operations on the state: writing each element, losing a value, the marks, the draws of the
random-bit source, and the end of an operation, successful (spec/10_state.md R32) or by an error (R33). -/

namespace Sys2Proof.Machine

/-- `BIN0 <- b` (R14). -/
def State.setBin0 (b : Bits) (s : State) : State := { s with bin0 := some b }

/-- `BIN1 <- b` (R14). -/
def State.setBin1 (b : Bits) (s : State) : State := { s with bin1 := some b }

/-- `SIN <- l` (R15). -/
def State.setSin (l : Symbols) (s : State) : State := { s with sin := some l }

/-- `BOUT0 <- b` (R16). -/
def State.setBout0 (b : Bits) (s : State) : State := { s with bout0 := some b }

/-- `BOUT1 <- b` (R16). -/
def State.setBout1 (b : Bits) (s : State) : State := { s with bout1 := some b }

/-- `SOUT <- l` (R17). -/
def State.setSout (l : Symbols) (s : State) : State := { s with sout := some l }

/-- `EPOS <- l` (R18). -/
def State.setEpos (l : List ErrorPos) (s : State) : State := { s with epos := some l }

/-- `FT.cnt <- t` (R19). -/
def State.setFt (t : FreqTable) (s : State) : State := { s with ft := some t }

/-- `TREE <- t` (R20). -/
def State.setTree (t : HuffmanNode) (s : State) : State := { s with tree := some t }

/-- `CT <- t` (R21). -/
def State.setCt (t : CodeTable) (s : State) : State := { s with ct := some t }

/-- The "holds a value" mark of an element (R13). -/
def State.holds (s : State) : Element → Bit
  | .bin0 => s.bin0.isSome
  | .bin1 => s.bin1.isSome
  | .sin => s.sin.isSome
  | .bout0 => s.bout0.isSome
  | .bout1 => s.bout1.isSome
  | .sout => s.sout.isSome
  | .epos => s.epos.isSome
  | .ft => s.ft.isSome
  | .tree => s.tree.isSome
  | .ct => s.ct.isSome

/-- `invalidate e`: the element now holds no value (R13, spec/00_scope.md section 5). -/
def State.invalidate (e : Element) (s : State) : State :=
  match e with
  | .bin0 => { s with bin0 := none }
  | .bin1 => { s with bin1 := none }
  | .sin => { s with sin := none }
  | .bout0 => { s with bout0 := none }
  | .bout1 => { s with bout1 := none }
  | .sout => { s with sout := none }
  | .epos => { s with epos := none }
  | .ft => { s with ft := none }
  | .tree => { s with tree := none }
  | .ct => { s with ct := none }

/-- Successful completion, beside the writes of the destinations: `STATUS <- 0; BUSY <- 0` (R32). -/
def State.complete (s : State) : State := { s with status := statusOk, busy := false }

/-- TAKING AN ERROR (R33, spec/60_exceptions.md R179): every destination holds no value, STATUS has the error's code, BUSY is
0; nothing is saved and control goes nowhere. There is no return from it (R180). -/
def State.takeError (dests : List Element) (e : OpError) (s : State) : State :=
  { dests.foldl (fun s d => s.invalidate d) s with status := e.code, busy := false }

/-- How an operation ends (R31 step 3): its function gives results for all destinations or one error. `exceeds` names the
destination whose capacity the results exceed, if any (R53, U4); `put` writes the destinations. -/
def conclude {α : Type} (dests : List Element) (outcome : Except OpError α) (exceeds : α → Option Element)
    (put : α → State → State) (s : State) : Result :=
  match outcome with
  | .error e => .next (s.takeError dests e)
  | .ok a =>
    match exceeds a with
    | some d => .refused (.overCapacity d)
    | none => .next (put a s).complete

/-- The bit that draw number `i` from now answers: the injected one, or the free one where none is left (R27, log 5). -/
def State.drawnBit (s : State) (i : Nat) : Bit :=
  match s.source[i]? with
  | some b => b
  | none => Config.freeBit (s.drawn + i)

/-- The answers to the next `n` draws, in order: the token of an operation that draws `n` bits (spec/42_stream_cipher.md R121). -/
def State.draws (s : State) (n : Nat) : Bits := (List.range n).map s.drawnBit

/-- The random-bit source after `n` draws. -/
def State.advanceSource (n : Nat) (s : State) : State :=
  { s with source := s.source.drop n, drawn := s.drawn + n }

/-- The host notes what it has read from `r`. -/
def State.noteRead (r : Readable) (v : ReadValue) (s : State) : State :=
  { s with reads := s.reads ++ [(r, v)] }

end Sys2Proof.Machine
end

