-- ==== Sys2Proof/Machine/Operands.lean ====
section
/-! DEFINITION. The operand forms: an operation reads a whole source element, which must hold a value (spec/10_state.md R31 step
2, U1) within the capacity of its buffer (spec/20_memory.md R53, U4). There are no addressing modes (20_memory.md section 7). -/

namespace Sys2Proof.Machine

/-- `n` bits fit a bit buffer (R11). -/
def fitsBits (c : Capacities) (n : Nat) : Bool :=
  match c.maxBits with
  | none => true
  | some m => decide (n ≤ m)

/-- `n` symbols fit a symbol buffer (R12). -/
def fitsSyms (c : Capacities) (n : Nat) : Bool :=
  match c.maxSyms with
  | none => true
  | some m => decide (n ≤ m)

/-- `n` fits a count or a node frequency: it is "below 2^CNT_W" (R3, R19). -/
def fitsCount (c : Capacities) (n : Nat) : Bool :=
  match c.cntW with
  | none => true
  | some w => decide (n < 2 ^ w)

/-- Every count of a table fits (R19). -/
def fitsCounts (c : Capacities) (t : FreqTable) : Bool := t.toList.all (fitsCount c)

/-- A source element: refused when it holds no value or more than its capacity, else handed on. -/
def readSource {α : Type} (e : Element) (content : Option α) (fits : α → Bool) (k : α → Result) : Result :=
  match content with
  | none => .refused (.sourceHoldsNoValue e)
  | some a => if fits a then k a else .refused (.overCapacity e)

/-- BIN0 as a source (R14). -/
def State.withBin0 (s : State) (k : Bits → Result) : Result :=
  readSource .bin0 s.bin0 (fun b => fitsBits s.caps b.length) k

/-- BIN1 as a source (R14). -/
def State.withBin1 (s : State) (k : Bits → Result) : Result :=
  readSource .bin1 s.bin1 (fun b => fitsBits s.caps b.length) k

/-- SIN as a source (R15). -/
def State.withSin (s : State) (k : Symbols → Result) : Result :=
  readSource .sin s.sin (fun l => fitsSyms s.caps l.length) k

/-- FT as a source (R19). -/
def State.withFt (s : State) (k : FreqTable → Result) : Result :=
  readSource .ft s.ft (fitsCounts s.caps) k

/-- TREE as a source (R20); no capacity of R3 bounds a tree. -/
def State.withTree (s : State) (k : HuffmanNode → Result) : Result :=
  readSource .tree s.tree (fun _ => true) k

/-- CT as a source (R21); no capacity of R3 bounds a code string. -/
def State.withCt (s : State) (k : CodeTable → Result) : Result :=
  readSource .ct s.ct (fun _ => true) k

/-- For `conclude`: no destination can exceed a capacity that the sources fit. -/
def neverOver {α : Type} (_ : α) : Option Element := none

/-- For `conclude`: the destination `e` exceeds its capacity unless the result fits. -/
def overUnless {α : Type} (e : Element) (fits : α → Bool) (a : α) : Option Element :=
  if fits a then none else some e

/-- The entry of a frequency table for a symbol, `FT.cnt[v]` (R19). -/
def countOf (t : FreqTable) (v : Symbol) : Nat := t[v.toNat]'v.isLt

/-- The entry of a code table for a symbol, `CT[v]` (R21). -/
def codeOf (t : CodeTable) (v : Symbol) : Option Bits := t[v.toNat]'v.isLt

/-- The 256 symbol values in ascending order (R12). -/
def allSymbols : Symbols := (List.range 256).map (BitVec.ofNat 8)

/-- The root's frequency field (R20). -/
def HuffmanNode.frequency : HuffmanNode → Nat
  | .leaf _ f => f
  | .internal f _ _ => f

/-- The leaf symbols of a tree, left to right. -/
def HuffmanNode.symbols : HuffmanNode → Symbols
  | .leaf v _ => [v]
  | .internal _ l r => l.symbols ++ r.symbols

/-- What R20 asks of a tree the host writes: "pairwise different leaf symbols". Finiteness is by construction. -/
def HuffmanNode.legal (t : HuffmanNode) : Bool := decide t.symbols.Nodup

/-- What R21 asks of an entry of a code table: "either absent or a bit string of length 1 to 255". -/
def codeEntryLegal : Option Bits → Bool
  | none => true
  | some c => decide (1 ≤ c.length ∧ c.length ≤ 255)

/-- What R21 asks of a code table the host writes. -/
def codeTableLegal (t : CodeTable) : Bool := t.toList.all codeEntryLegal

end Sys2Proof.Machine
end

