-- ==== Sys2Proof/Machine/BitPacker.lean ====
section
/-! DEFINITION. The bit packer: BP.PACK and BP.UNPACK (spec/41_bitpacker.md R110 to R113; bit order spec/20_memory.md R42). -/

namespace Sys2Proof.Machine

/-- The symbol packed from 8 bits, the first the most significant (R67). -/
def symbolOfBits (b0 b1 b2 b3 b4 b5 b6 b7 : Bit) : Symbol :=
  BitVec.ofNat 8 (128 * b0.toNat + 64 * b1.toNat + 32 * b2.toNat + 16 * b3.toNat
    + 8 * b4.toNat + 4 * b5.toNat + 2 * b6.toNat + b7.toNat)

/-- `pack` (R110): whole groups of 8 bits in order; a trailing group of fewer than 8 bits is dropped (R45). -/
def pack : Bits → Symbols
  | b0 :: b1 :: b2 :: b3 :: b4 :: b5 :: b6 :: b7 :: rest => symbolOfBits b0 b1 b2 b3 b4 b5 b6 b7 :: pack rest
  | _ => []

/-- The 8 bits of a symbol, most significant first (R67). -/
def bitsOfSymbol (v : Symbol) : Bits :=
  [v.getLsbD 7, v.getLsbD 6, v.getLsbD 5, v.getLsbD 4, v.getLsbD 3, v.getLsbD 2, v.getLsbD 1, v.getLsbD 0]

/-- `unpack` (R112). -/
def unpack (l : Symbols) : Bits := l.flatMap bitsOfSymbol

/-- BP.PACK (R111): it raises no error. -/
def execBpPack (s : State) : Result :=
  s.withBin0 fun b =>
    conclude [.sout] (.ok (pack b)) (overUnless .sout fun l => fitsSyms s.caps l.length) State.setSout s

/-- BP.UNPACK (R113): it raises no error. -/
def execBpUnpack (s : State) : Result :=
  s.withSin fun l =>
    conclude [.bout0] (.ok (unpack l)) (overUnless .bout0 fun b => fitsBits s.caps b.length) State.setBout0 s

end Sys2Proof.Machine
end

