-- ==== Sys2Proof/Machine/Hamming.lean ====
section
/-! DEFINITION. The Hamming(7,4) decoder: HAM.DECBLK and HAM.DEC (spec/40_hamming.md R90 to R92; spec/30_encoding.md R63 to R66). -/

namespace Sys2Proof.Machine

/-- The syndrome table of R65, complete over all eight values. -/
def syndromePosition (e1 e2 e3 : Bit) : ErrorPos :=
  match e1, e2, e3 with
  | true, true, false => 1
  | true, true, true => 2
  | true, false, true => 3
  | false, true, true => 4
  | false, false, false => 0
  | true, false, false => 0
  | false, true, false => 0
  | false, false, true => 0

/-- `decode_block` (R90): parities recomputed from the received data bits (R64), the syndrome (R65), and the one data bit at the
error position flipped. -/
def decodeBlock (c1 c2 c3 c4 c5 c6 c7 : Bit) : Bits × ErrorPos :=
  let p1 := c1 ^^ c2 ^^ c3
  let p2 := c1 ^^ c2 ^^ c4
  let p3 := c2 ^^ c3 ^^ c4
  let pos := syndromePosition (c5 != p1) (c6 != p2) (c7 != p3)
  ([c1 ^^ (pos == 1), c2 ^^ (pos == 2), c3 ^^ (pos == 3), c4 ^^ (pos == 4)], pos)

/-- The windows of 7 bits in order, their corrected data bits concatenated and their positions listed (the loop of R92). Bits
after the last whole window are not looked at; R92 raises its error before they could matter. -/
def decodeWindows : Bits → Bits × List ErrorPos
  | c1 :: c2 :: c3 :: c4 :: c5 :: c6 :: c7 :: rest =>
    let block := decodeBlock c1 c2 c3 c4 c5 c6 c7
    let tail := decodeWindows rest
    (block.1 ++ tail.1, block.2 :: tail.2)
  | _ => ([], [])

/-- The function of HAM.DECBLK (R91): exactly one block. -/
def decodeOneBlock (b : Bits) : Except OpError (Bits × List ErrorPos) :=
  if b.length ≠ 7 then .error .incompleteBlock else .ok (decodeWindows b)

/-- The function of HAM.DEC (R92): whole blocks only. -/
def decodeBlocks (b : Bits) : Except OpError (Bits × List ErrorPos) :=
  if b.length % 7 ≠ 0 then .error .incompleteBlock else .ok (decodeWindows b)

/-- `BOUT0 <- d; EPOS <- p` (R91, R92). -/
def putBlocks (r : Bits × List ErrorPos) (s : State) : State := (s.setBout0 r.1).setEpos r.2

/-- HAM.DECBLK (R91). The result is shorter than the operand, so it fits where the operand does. -/
def execHamDecblk (s : State) : Result :=
  s.withBin0 fun b => conclude [.bout0, .epos] (decodeOneBlock b) neverOver putBlocks s

/-- HAM.DEC (R92). The result is no longer than the operand, so it fits where the operand does. -/
def execHamDec (s : State) : Result :=
  s.withBin0 fun b => conclude [.bout0, .epos] (decodeBlocks b) neverOver putBlocks s

end Sys2Proof.Machine
end

