-- ==== Sys2Proof/Machine/HuffmanDecoder.lean ====
section
/-! DEFINITION. The Huffman decoder: HUF.DEC (spec/44_huffman_decoder.md R160 to R162). -/

namespace Sys2Proof.Machine

/-- The child a bit leads to, 0 left and 1 right (R160). A Leaf has none; the walk of R160 never asks there, since it restarts
at its Internal root whenever it reaches a Leaf. -/
def HuffmanNode.child : HuffmanNode → Bit → HuffmanNode
  | .internal _ l _, false => l
  | .internal _ _ r, true => r
  | .leaf v f, _ => .leaf v f

/-- Put a symbol in front of what the rest of the walk gives. -/
def emit (v : Symbol) : Except OpError Symbols → Except OpError Symbols
  | .ok out => .ok (v :: out)
  | .error e => .error e

/-- The walk of R160 from `node`, where `atRoot` says whether the walk stands at the root (a position in the tree). -/
def walkBits (root node : HuffmanNode) (atRoot : Bit) : Bits → Except OpError Symbols
  | [] => if atRoot then .ok [] else .error .truncatedStream
  | b :: rest =>
    match node.child b with
    | .leaf v _ => emit v (walkBits root root true rest)
    | .internal f l r => walkBits root (.internal f l r) false rest

/-- The decoding of R161 with the single Leaf `v`: every 0 bit is the symbol, a 1 bit is InvalidCode. -/
def decodeSingle (v : Symbol) : Bits → Except OpError Symbols
  | [] => .ok []
  | true :: _ => .error .invalidCode
  | false :: rest => emit v (decodeSingle v rest)

/-- `decode` (R160 for an Internal root, R161 for a Leaf root). -/
def decodeBits (root : HuffmanNode) (b : Bits) : Except OpError Symbols :=
  match root with
  | .leaf v _ => decodeSingle v b
  | .internal f l r => walkBits (.internal f l r) (.internal f l r) true b

/-- HUF.DEC (R162). -/
def execHufDec (s : State) : Result :=
  s.withBin0 fun b => s.withTree fun t =>
    conclude [.sout] (decodeBits t b) (overUnless .sout fun l => fitsSyms s.caps l.length) State.setSout s

end Sys2Proof.Machine
end

