-- ==== Sys2Proof/Machine/HuffmanEncoder.lean ====
section
/-! DEFINITION. The Huffman encoder: HUF.FREQ, HUF.TREE, HUF.CODES, HUF.ENC (spec/43_huffman_encoder.md R130 to R144). -/

namespace Sys2Proof.Machine

/-- `count` (R130): for each symbol value the number of its occurrences. -/
def countSymbols (l : Symbols) : FreqTable := Vector.ofFn fun v => l.count (BitVec.ofNat 8 v.val)

/-- `v` stands before `w`, or is `w`, in the order of R131: descending count, then ascending value (R71). -/
def ranksBefore (t : FreqTable) (v w : Symbol) : Bool :=
  decide (countOf t w < countOf t v ∨ (countOf t v = countOf t w ∧ v.toNat ≤ w.toNat))

/-- `FT.order` (R131): all 256 symbols, the most frequent first. A view; no operation reads it. -/
def frequencyOrder (t : FreqTable) : Symbols := allSymbols.insertionSort fun v w => ranksBefore t v w

/-- A node available for merging, with its id (spec/30_encoding.md R70). The id is no part of the TREE value (log 16). -/
structure Candidate where
  id : Nat
  tree : HuffmanNode
deriving DecidableEq, Repr

/-- `(frequency, id)` of `a` is not above that of `b`, in lexicographic order (R134). -/
def Candidate.atMost (a b : Candidate) : Bool :=
  decide (a.tree.frequency < b.tree.frequency ∨ (a.tree.frequency = b.tree.frequency ∧ a.id ≤ b.id))

/-- Select and remove the least of the nodes `x :: rest` (R134): the node selected and those that remain. -/
def selectLeast (x : Candidate) : List Candidate → Candidate × List Candidate
  | [] => (x, [])
  | y :: ys =>
    let below := selectLeast y ys
    if x.atMost below.1 then (x, y :: ys) else (below.1, x :: below.2)

/-- The node made by merging `a`, selected first, and `b`, selected second: left is `b`, right is `a` (R135). -/
def mergeNodes (nextId : Nat) (a b : Candidate) : Candidate :=
  { id := nextId, tree := .internal (a.tree.frequency + b.tree.frequency) b.tree a.tree }

/-- The loop of R136 on the available nodes `x :: rest`; `steps` bounds the merges, and `rest.length` of them are enough. -/
def mergeLoop : Nat → Nat → Candidate → List Candidate → HuffmanNode
  | 0, _, x, _ => x.tree
  | _ + 1, _, x, [] => x.tree
  | steps + 1, nextId, x, y :: ys =>
    let first := selectLeast x (y :: ys)
    match first.2 with
    | [] => first.1.tree
    | z :: zs =>
      let second := selectLeast z zs
      mergeLoop steps (nextId + 1) (mergeNodes nextId first.1 second.1) second.2

/-- The leaves a table gives, one for each symbol of non-zero count (R133); a leaf's id is its symbol value (R70). -/
def leafCandidates (t : FreqTable) : List Candidate :=
  (allSymbols.filter fun v => decide (0 < countOf t v)).map fun v =>
    { id := v.toNat, tree := .leaf v (countOf t v) }

/-- `build_tree` (R136): EmptyAlphabet when there is no leaf (R138); the first Internal node has id 256 (R70). -/
def buildTree (t : FreqTable) : Except OpError HuffmanNode :=
  match leafCandidates t with
  | [] => .error .emptyAlphabet
  | x :: rest => .ok (mergeLoop rest.length 256 x rest)

/-- Record the code `path` for the symbol `v`: `ct[v] = path` (R140). -/
def recordCode (t : CodeTable) (v : Symbol) (path : Bits) : CodeTable := t.set v.toNat (some path) v.isLt

/-- `walk` (R140): 0 to the left, 1 to the right, the path recorded at each leaf. -/
def walkCodes : HuffmanNode → Bits → CodeTable → CodeTable
  | .leaf v _, path, t => recordCode t v path
  | .internal _ l r, path, t => walkCodes r (path ++ [true]) (walkCodes l (path ++ [false]) t)

/-- A code table with no entries. -/
def noCodes : CodeTable := Vector.replicate 256 none

/-- `assign_codes` (R140); the only symbol of a single-Leaf tree gets the code `0` (R141). -/
def assignCodes : HuffmanNode → CodeTable
  | .leaf v _ => recordCode noCodes v [false]
  | .internal f l r => walkCodes (.internal f l r) [] noCodes

/-- `encode` (R143): the codes of the symbols in input order; UnknownSymbol at the first symbol without an entry. -/
def encodeSymbols (t : CodeTable) : Symbols → Except OpError Bits
  | [] => .ok []
  | v :: rest =>
    match codeOf t v with
    | none => .error .unknownSymbol
    | some c =>
      match encodeSymbols t rest with
      | .error e => .error e
      | .ok out => .ok (c ++ out)

/-- HUF.FREQ (R132): it raises no error; more symbols than a count can hold are over capacity (R53). -/
def execHufFreq (s : State) : Result :=
  s.withSin fun l =>
    conclude [.ft] (.ok (countSymbols l)) (overUnless .ft fun _ => fitsCount s.caps l.length) State.setFt s

/-- HUF.TREE (R139): a root frequency, the sum of the counts, that no node frequency can hold is over capacity (R3, U4). -/
def execHufTree (s : State) : Result :=
  s.withFt fun t =>
    conclude [.tree] (buildTree t) (overUnless .tree fun n => fitsCount s.caps n.frequency) State.setTree s

/-- HUF.CODES (R142): it raises no error. -/
def execHufCodes (s : State) : Result :=
  s.withTree fun t => conclude [.ct] (.ok (assignCodes t)) neverOver State.setCt s

/-- HUF.ENC (R144). -/
def execHufEnc (s : State) : Result :=
  s.withSin fun l => s.withCt fun t =>
    conclude [.bout0] (encodeSymbols t l) (overUnless .bout0 fun b => fitsBits s.caps b.length) State.setBout0 s

end Sys2Proof.Machine
end

