-- ==== Sys2Proof/Machine/StreamCipher.lean ====
section
/-! DEFINITION. The XOR stream cipher: SC.ENC and SC.DEC (spec/42_stream_cipher.md R120 to R122). -/

namespace Sys2Proof.Machine

/-- `xor_seq` (R120) on sequences of one length: element by element, nothing carried. -/
def xorSeq (a b : Bits) : Bits := List.zipWith xor a b

/-- `BOUT0 <- ciphertext; BOUT1 <- token` (R121). -/
def putCipher (r : Bits × Bits) (s : State) : State := (s.setBout0 r.1).setBout1 r.2

/-- SC.ENC (R121): draws one bit for each plaintext bit, in order; the token is the bits drawn. It raises no error, and both
results have the operand's length, so they fit where it does. -/
def execScEnc (s : State) : Result :=
  s.withBin0 fun b =>
    conclude [.bout0, .bout1] (.ok (xorSeq b (s.draws b.length), s.draws b.length)) neverOver putCipher
      (s.advanceSource b.length)

/-- The function of SC.DEC (R122): the length check comes before any XOR. -/
def decrypt (b token : Bits) : Except OpError Bits :=
  if b.length ≠ token.length then .error .lengthMismatch else .ok (xorSeq b token)

/-- SC.DEC (R122). The result has the operands' length, so it fits where they do. -/
def execScDec (s : State) : Result :=
  s.withBin0 fun b => s.withBin1 fun token =>
    conclude [.bout0] (decrypt b token) neverOver State.setBout0 s

end Sys2Proof.Machine
end

