-- ==== Sys2Proof/Machine/Dispatch.lean ====
section
/-! DEFINITION. Which meaning each operation has (spec/30_encoding.md R61). -/

namespace Sys2Proof.Machine

def exec (i : Instr) (s : State) : Host.Outcome State Fault Refusal :=
  match i with
  | .hamDecblk => Sys2Proof.Machine.execHamDecblk s
  | .hamDec => Sys2Proof.Machine.execHamDec s
  | .bpPack => Sys2Proof.Machine.execBpPack s
  | .bpUnpack => Sys2Proof.Machine.execBpUnpack s
  | .scEnc => Sys2Proof.Machine.execScEnc s
  | .scDec => Sys2Proof.Machine.execScDec s
  | .hufFreq => Sys2Proof.Machine.execHufFreq s
  | .hufTree => Sys2Proof.Machine.execHufTree s
  | .hufCodes => Sys2Proof.Machine.execHufCodes s
  | .hufEnc => Sys2Proof.Machine.execHufEnc s
  | .hufDec => Sys2Proof.Machine.execHufDec s

end Sys2Proof.Machine
end

