-- ==== Sys2Proof/Machine/HostAccess.lean ====
section
/-! DEFINITION. What the host's actions do: writes, reads, commands, pseudo-operations and reset (spec/20_memory.md R54,
spec/10_state.md R22, R31, spec/30_encoding.md R75, R76, spec/70_reset_and_hazards.md R200). -/

namespace Sys2Proof.Machine

/-- The sequencer takes the code on the CMD port (R31): a reserved code completes at once with IllegalOp, which has no
destinations (R62, R177); any other starts its operation, with BUSY 1 until it completes (R23). CMD keeps nothing (R22). -/
def takeCommand (s : State) : Result :=
  match s.cmd with
  | none => .next s
  | some c =>
    match decode c with
    | .error _ => .next ({ s with cmd := none }.takeError [] .illegalOp)
    | .ok i => exec i { s with cmd := none, busy := true }

/-- A host write of `c` to CMD, which starts the operation step (R22). -/
def writeCmd (c : Command) (s : State) : Result := takeCommand { s with cmd := some c }

/-- The value of an element as the host reads it; the element itself where it holds none (R13). -/
def heldValue {α : Type} (e : Element) (content : Option α) (view : α → ReadValue) : Except Element ReadValue :=
  match content with
  | none => .error e
  | some a => .ok (view a)

/-- What a host read answers (R54). STATUS, BUSY and the marks always read. -/
def readElement (s : State) : Readable → Except Element ReadValue
  | .bout0 => heldValue .bout0 s.bout0 .bits
  | .bout1 => heldValue .bout1 s.bout1 .bits
  | .sout => heldValue .sout s.sout .syms
  | .epos => heldValue .epos s.epos .positions
  | .ft => heldValue .ft s.ft .counts
  | .ftOrder => heldValue .ft s.ft fun t => .syms (frequencyOrder t)
  | .tree => heldValue .tree s.tree .tree
  | .ct => heldValue .ct s.ct .codes
  | .status => .ok (.status s.status)
  | .busy => .ok (.flag s.busy)
  | .mark e => .ok (.flag (s.holds e))

/-- `RD r`: the block is unchanged (R48) and the host has the value; without a value the read is refused (U2). -/
def hostRead (r : Readable) (s : State) : Result :=
  match readElement s r with
  | .error e => .refused (.readHoldsNoValue e)
  | .ok v => .next (s.noteRead r v)

/-- `WR`: the whole value is replaced (R54), or the write is refused when the value is not one of the element. -/
def hostWrite (refusal : Option Refusal) (put : State → State) (s : State) : Result :=
  match refusal with
  | some r => .refused r
  | none => .next (put s)

/-- `r` unless `b`. -/
def refuseUnless (b : Bool) (r : Refusal) : Option Refusal := if b then none else some r

/-- The content of a bit result buffer, a source of MOV (R76). -/
def State.bitResult (s : State) : BitResult → Option Bits
  | .bout0 => s.bout0
  | .bout1 => s.bout1

/-- The readable name of a bit result buffer. -/
def BitResult.readable : BitResult → Readable
  | .bout0 => .bout0
  | .bout1 => .bout1

/-- The data element a bit result buffer is. -/
def BitResult.element : BitResult → Element
  | .bout0 => .bout0
  | .bout1 => .bout1

/-- `WR dst, b` for a bit operand buffer (R76). -/
def BitOperand.write : BitOperand → Bits → HostAction
  | .bin0, b => .wrBin0 b
  | .bin1, b => .wrBin1 b

/-- Put actions in front of the host's remaining ones. -/
def State.thenDo (l : List HostAction) (s : State) : State := { s with program := l ++ s.program }

/-- `MOV dst, src`: "RD src followed by WR dst, (the value read)" (R76); the write is the host's next action. -/
def moveBits (dst : BitOperand) (src : BitResult) (s : State) : Result :=
  match s.bitResult src with
  | none => .refused (.readHoldsNoValue src.element)
  | some b => .next ((s.noteRead src.readable (.bits b)).thenDo [dst.write b])

/-- `MOV SIN, SOUT` (R76). -/
def moveSyms (s : State) : Result :=
  match s.sout with
  | none => .refused (.readHoldsNoValue .sout)
  | some l => .next ((s.noteRead .sout (.syms l)).thenDo [.wrSin l])

/-- Reset (R30, R200): the thirteen elements of the block are as after reset, whatever it was doing; the capacities, the
random-bit source and the host are not the block's and keep theirs. -/
def applyReset (s : State) : State :=
  { State.reset with caps := s.caps, source := s.source, drawn := s.drawn, program := s.program, reads := s.reads }

/-- What the host may do while BUSY is 1: apply reset (R200) and poll BUSY or STATUS. Everything else R203 forbids or R54 allows
only while BUSY is 0 (log 7). -/
def HostAction.allowedWhileBusy : HostAction → Bool
  | .reset => true
  | .rd .busy => true
  | .rd .status => true
  | _ => false

/-- The effect of a host action on an idle block. -/
def performAction (a : HostAction) (s : State) : Result :=
  match a with
  | .wrBin0 b => hostWrite (refuseUnless (fitsBits s.caps b.length) (.overCapacity .bin0)) (State.setBin0 b) s
  | .wrBin1 b => hostWrite (refuseUnless (fitsBits s.caps b.length) (.overCapacity .bin1)) (State.setBin1 b) s
  | .wrSin l => hostWrite (refuseUnless (fitsSyms s.caps l.length) (.overCapacity .sin)) (State.setSin l) s
  | .wrFt t => hostWrite (refuseUnless (fitsCounts s.caps t) (.overCapacity .ft)) (State.setFt t) s
  | .wrTree t => hostWrite (refuseUnless t.legal .treeRepeatsSymbol) (State.setTree t) s
  | .wrCt t => hostWrite (refuseUnless (codeTableLegal t) .codeEntryIllegal) (State.setCt t) s
  | .wrCmd c => writeCmd c s
  | .wrCmdIfOk c => if s.status = statusOk then writeCmd c s else .next s
  | .rd r => hostRead r s
  | .movBits dst src => moveBits dst src s
  | .movSyms => moveSyms s
  | .hufBuild => writeCmd 0x7 (s.thenDo [.wrCmdIfOk 0x8, .wrCmdIfOk 0x9])
  | .hufCompress => writeCmd 0x7 (s.thenDo [.wrCmdIfOk 0x8, .wrCmdIfOk 0x9, .wrCmdIfOk 0xA])
  | .reset => .next (applyReset s)

/-- A host action, refused while BUSY is 1 unless it is allowed then (U5, R203). -/
def hostAct (a : HostAction) (s : State) : Result :=
  if s.busy && !a.allowedWhileBusy then .refused .hostActsWhileBusy else performAction a s

/-- One step: the host performs its next action; with none left the block is idle with all state retained (R188, R200). -/
def hostStep (s : State) : Result :=
  match s.program with
  | [] => .next s
  | a :: rest => hostAct a { s with program := rest }

/-- The host's next action is to write to CMD the word `w` of `nbits` bits, and the block is idle so that it issues (R22). -/
def placeCommand (s : State) (nbits w : Nat) : State :=
  { s with program := .wrCmd (BitVec.ofNat 4 (w % 2 ^ nbits)) :: s.program, busy := false }

end Sys2Proof.Machine
end

