-- ==== Sys2Proof/Machine/Step.lean ====
section
/-! DEFINITION. The step of the machine (spec/10_state.md R31; 20_memory.md R50): one host action. The block fetches nothing (R25);
what it runs next is the next code the host writes to CMD. -/

namespace Sys2Proof.Machine

/-- One step: the host's next action, with the whole operation it issues if it is a CMD write. -/
def step (s : State) : Host.Outcome State Fault Refusal := hostStep s

/-- `s` with the command word `w` as the next thing the host writes to CMD, so that the next step runs it (log 1). -/
def State.withFetchWord (s : State) (nbits w : Nat) : State := placeCommand s nbits w

end Sys2Proof.Machine
end

