-- ==== Sys2Proof/Safety.lean ====
section
/-! DEFINITION. The words claims are stated in: what each operation reads and writes (spec/30_encoding.md R61), what it may raise
(spec/60_exceptions.md R170), paths and sums in a tree (spec/10_state.md R20), a fixture codeword (spec/40_hamming.md R95), and
the legal states of the machine. -/

namespace Sys2Proof.Machine

/-- The sources column of R61 (the random-bit source of SC.ENC is no element). -/
def sourcesOf : Instr → List Element
  | .hamDecblk => [.bin0]
  | .hamDec => [.bin0]
  | .bpPack => [.bin0]
  | .bpUnpack => [.sin]
  | .scEnc => [.bin0]
  | .scDec => [.bin0, .bin1]
  | .hufFreq => [.sin]
  | .hufTree => [.ft]
  | .hufCodes => [.tree]
  | .hufEnc => [.sin, .ct]
  | .hufDec => [.bin0, .tree]

/-- The destinations column of R61. -/
def destinationsOf : Instr → List Element
  | .hamDecblk => [.bout0, .epos]
  | .hamDec => [.bout0, .epos]
  | .bpPack => [.sout]
  | .bpUnpack => [.bout0]
  | .scEnc => [.bout0, .bout1]
  | .scDec => [.bout0]
  | .hufFreq => [.ft]
  | .hufTree => [.tree]
  | .hufCodes => [.ct]
  | .hufEnc => [.bout0]
  | .hufDec => [.sout]

/-- The errors an operation can end with (the "raised by" column of R170). -/
def errorsOf : Instr → List OpError
  | .hamDecblk => [.incompleteBlock]
  | .hamDec => [.incompleteBlock]
  | .bpPack => []
  | .bpUnpack => []
  | .scEnc => []
  | .scDec => [.lengthMismatch]
  | .hufFreq => []
  | .hufTree => [.emptyAlphabet]
  | .hufCodes => []
  | .hufEnc => [.unknownSymbol]
  | .hufDec => [.truncatedStream, .invalidCode]

/-- The states `s` and `t` agree at the element `e`: same mark and, if it holds one, same value. -/
def State.sameAt (s t : State) : Element → Prop
  | .bin0 => s.bin0 = t.bin0
  | .bin1 => s.bin1 = t.bin1
  | .sin => s.sin = t.sin
  | .bout0 => s.bout0 = t.bout0
  | .bout1 => s.bout1 = t.bout1
  | .sout => s.sout = t.sout
  | .epos => s.epos = t.epos
  | .ft => s.ft = t.ft
  | .tree => s.tree = t.tree
  | .ct => s.ct = t.ct

/-- The node reached from `n` by a path, 0 left and 1 right, if there is one (R69). -/
def HuffmanNode.follow : HuffmanNode → Bits → Option HuffmanNode
  | n, [] => some n
  | .leaf _ _, _ :: _ => none
  | .internal _ l _, false :: path => l.follow path
  | .internal _ _ r, true :: path => r.follow path

/-- The leaves of a tree, left to right, each with its frequency. -/
def HuffmanNode.leaves : HuffmanNode → List (Symbol × Nat)
  | .leaf v f => [(v, f)]
  | .internal _ l r => l.leaves ++ r.leaves

/-- How many Internal nodes a tree has. -/
def HuffmanNode.internals : HuffmanNode → Nat
  | .leaf _ _ => 0
  | .internal _ l r => l.internals + r.internals + 1

/-- "frequency of an Internal node equals the sum of its children's frequencies" (R20), everywhere in the tree. -/
def HuffmanNode.sumsHold : HuffmanNode → Prop
  | .leaf _ _ => True
  | .internal f l r => f = l.frequency + r.frequency ∧ l.sumsHold ∧ r.sumsHold

/-- The symbols of non-zero count, ascending (R133). -/
def nonzeroSymbols (t : FreqTable) : Symbols := allSymbols.filter fun v => decide (0 < countOf t v)

/-- The valid codeword of four data bits, data first (R64, R95): a fixture, no operation of the block. -/
def codeword (d1 d2 d3 d4 : Bit) : Bits :=
  [d1, d2, d3, d4, d1 ^^ d2 ^^ d3, d1 ^^ d2 ^^ d4, d2 ^^ d3 ^^ d4]

/-- A block with the bit at position `k` (1 to 7) flipped; `k = 0` flips nothing. -/
def flipAt (k : Nat) (b : Bits) : Bits := b.mapIdx fun i c => c ^^ (i + 1 == k)

/-- MAXSYMS and CNT_W meet the constraint `2^CNT_W > MAXSYMS` of R3. -/
def capacitiesConsistent (c : Capacities) : Prop :=
  match c.cntW, c.maxSyms with
  | none, _ => True
  | some w, some m => m < 2 ^ w
  | some _, none => False

/-- What every state between steps satisfies: the block is idle with nothing on CMD (R22, R23), error positions are 0 to 4
(R66), the leaf symbols of TREE are pairwise different (R20) and the entries of CT are absent or 1 to 255 bits (R21). -/
structure State.Legal (s : State) : Prop where
  idle : s.busy = false
  port : s.cmd = none
  positions : ∀ p, s.epos = some p → ∀ x ∈ p, x.toNat ≤ 4
  tree : ∀ n, s.tree = some n → n.symbols.Nodup
  codes : ∀ t, s.ct = some t → codeTableLegal t = true

/-- Every buffer is within its capacity and every count below `2^CNT_W` (R3, R11, R12, R19). -/
structure State.WithinCapacity (s : State) : Prop where
  consistent : capacitiesConsistent s.caps
  bin0 : ∀ b, s.bin0 = some b → fitsBits s.caps b.length = true
  bin1 : ∀ b, s.bin1 = some b → fitsBits s.caps b.length = true
  sin : ∀ l, s.sin = some l → fitsSyms s.caps l.length = true
  bout0 : ∀ b, s.bout0 = some b → fitsBits s.caps b.length = true
  bout1 : ∀ b, s.bout1 = some b → fitsBits s.caps b.length = true
  sout : ∀ l, s.sout = some l → fitsSyms s.caps l.length = true
  ft : ∀ t, s.ft = some t → fitsCounts s.caps t = true

/-- The host has read no STATUS but 0: what "no operation of the program failed" comes to for a host that reads STATUS after
every operation (R181). -/
def State.noFailureRead (s : State) : Prop :=
  ∀ r ∈ s.reads, r.1 = Readable.status → r.2 = ReadValue.status statusOk

end Sys2Proof.Machine
end

