-- ==== Sys2Proof/Certificates/Slice0/Obligations.lean ====
section
/-! DEFINITION. The statements for the provers. Each docstring names the rule of spec/ it formalises, or the log entry of the model's
choice it rests on. -/

open Sys2Proof Sys2Proof.Machine

/-! ### Command words -/

/-- R60, R61: the decoder undoes the encoder, and no two words name one operation. -/
def Obligations.DecodingUndoesEncoding : Prop :=
  (∀ i : Instr, decode (encode i) = .ok i) ∧ ∀ (c : Command) (i : Instr), decode c = .ok i → encode i = c

/-- R62: exactly the five reserved words are rejected, each by its own name. -/
def Obligations.ReservedWordsAreExactlyFive : Prop :=
  ∀ c : Command, decode c = .error (.reserved c) ↔ (c = 0x0 ∨ c = 0xC ∨ c = 0xD ∨ c = 0xE ∨ c = 0xF)

/-- R61: the eleven words of the table's binary column, written out. -/
def Obligations.CommandWordsDecodeAsTheTableSays : Prop :=
  decode 0b0001#4 = .ok .hamDecblk ∧ decode 0b0010#4 = .ok .hamDec ∧ decode 0b0011#4 = .ok .bpPack ∧
    decode 0b0100#4 = .ok .bpUnpack ∧ decode 0b0101#4 = .ok .scEnc ∧ decode 0b0110#4 = .ok .scDec ∧
    decode 0b0111#4 = .ok .hufFreq ∧ decode 0b1000#4 = .ok .hufTree ∧ decode 0b1001#4 = .ok .hufCodes ∧
    decode 0b1010#4 = .ok .hufEnc ∧ decode 0b1011#4 = .ok .hufDec

/-- R22, R31: a step whose host action writes the code of an operation to CMD is that operation, run with the action taken off
the host's list, nothing left on CMD and BUSY 1. That a step is a host action taken from a list is the model's choice (log 1). -/
def Obligations.CmdWriteRunsTheDecodedOperation : Prop :=
  ∀ (s : State) (c : Command) (i : Instr) (rest : List HostAction),
    s.busy = false → s.program = .wrCmd c :: rest → decode c = .ok i →
      step s = exec i { s with program := rest, cmd := none, busy := true }

/-- R62: issuing a reserved code sets STATUS to 7 and changes no buffer, table or mark, in every idle state; every other code
is an operation. -/
def Obligations.ReservedCommandOnlySetsStatus : Prop :=
  (∀ (s : State) (c : Command) (rest : List HostAction),
    s.busy = false → s.program = .wrCmd c :: rest → (c = 0x0 ∨ c = 0xC ∨ c = 0xD ∨ c = 0xE ∨ c = 0xF) →
      step s = .next { s with program := rest, cmd := none, status := 7 }) ∧
  ∀ c : Command, ¬(c = 0x0 ∨ c = 0xC ∨ c = 0xD ∨ c = 0xE ∨ c = 0xF) → ∃ i : Instr, decode c = .ok i

/-- R188, R200: with no host action left the block does nothing and keeps all its state. -/
def Obligations.IdleBlockStartsNothing : Prop :=
  ∀ s : State, s.program = [] → step s = .next s

/-! ### Reset -/

/-- R30: what reset leaves. -/
def Obligations.ResetLeavesTheValuesOfTheSpec : Prop :=
  State.reset.busy = false ∧ State.reset.status = 0 ∧ State.reset.cmd = none ∧
    ∀ e : Element, State.reset.holds e = false

/-- R200, R30: reset, in any state and whatever BUSY is, makes the block as after reset and leaves the random-bit source alone. The
model's choices in it: the capacities, the host's remaining actions and its readings, which are the model's own fields, keep their
values (log 1, 4, 8), and that the block then "starts nothing by itself" is said as an idle step to the same state (log 18). -/
def Obligations.ResetActsInEveryState : Prop :=
  (∀ (s : State) (rest : List HostAction), s.program = .reset :: rest →
    step s = .next { State.reset with
      caps := s.caps, source := s.source, drawn := s.drawn, program := rest, reads := s.reads }) ∧
  ∀ s : State, s.program = [.reset] → ∃ t, step s = .next t ∧ step t = .next t

/-! ### Hamming decoder -/

/-- R90, R65: the syndrome is recomputed from the received data bits, looked up in the table, and that one data bit flipped. -/
def Obligations.DecodeBlockFollowsTheSyndromeTable : Prop :=
  ∀ c1 c2 c3 c4 c5 c6 c7 : Bit,
    decodeBlock c1 c2 c3 c4 c5 c6 c7 =
      match c5 ^^ c1 ^^ c2 ^^ c3, c6 ^^ c1 ^^ c2 ^^ c4, c7 ^^ c2 ^^ c3 ^^ c4 with
      | true, true, false => ([!c1, c2, c3, c4], 1)
      | true, true, true => ([c1, !c2, c3, c4], 2)
      | true, false, true => ([c1, c2, !c3, c4], 3)
      | false, true, true => ([c1, c2, c3, !c4], 4)
      | _, _, _ => ([c1, c2, c3, c4], 0)

/-- R93: a codeword with at most one position flipped gives its data bits, and reports the flipped data position or 0. -/
def Obligations.SingleFlipIsHarmless : Prop :=
  ∀ (d1 d2 d3 d4 : Bit) (k : Fin 8),
    decodeWindows (flipAt k.val (codeword d1 d2 d3 d4)) =
      ([d1, d2, d3, d4], [if k.val ≤ 4 then BitVec.ofNat 3 k.val else 0])

/-- R94: every 7-bit block is within one flip of exactly one codeword, and decodes to that codeword's data. -/
def Obligations.EveryBlockIsOneFlipFromOneCodeword : Prop :=
  ∀ c1 c2 c3 c4 c5 c6 c7 : Bit, ∀ d1 d2 d3 d4 : Bit,
    (∃ k : Fin 8, flipAt k.val (codeword d1 d2 d3 d4) = [c1, c2, c3, c4, c5, c6, c7]) ↔
      (decodeBlock c1 c2 c3 c4 c5 c6 c7).1 = [d1, d2, d3, d4]

/-- R91: HAM.DECBLK decodes exactly seven bits to BOUT0 and EPOS, and any other length is IncompleteBlock. -/
def Obligations.HamDecblkDecodesOneBlockOrFails : Prop :=
  encode .hamDecblk = 0x1 ∧
  (∀ (s : State) (c1 c2 c3 c4 c5 c6 c7 : Bit), s.bin0 = some [c1, c2, c3, c4, c5, c6, c7] → fitsBits s.caps 7 = true →
    exec .hamDecblk s = .next { s with
      bout0 := some (decodeBlock c1 c2 c3 c4 c5 c6 c7).1
      epos := some [(decodeBlock c1 c2 c3 c4 c5 c6 c7).2]
      status := 0
      busy := false }) ∧
  ∀ (s : State) (b : Bits), s.bin0 = some b → fitsBits s.caps b.length = true → b.length ≠ 7 →
    exec .hamDecblk s = .next { s with bout0 := none, epos := none, status := 1, busy := false }

/-- R92: HAM.DEC decodes window k, bits 7k to 7k+6, to bits 4k to 4k+3 of BOUT0 and element k of EPOS; a length that is no
multiple of 7 is IncompleteBlock. -/
def Obligations.HamDecDecodesWindowByWindow : Prop :=
  encode .hamDec = 0x2 ∧
  (∀ (s : State) (b : Bits), s.bin0 = some b → fitsBits s.caps b.length = true → b.length % 7 = 0 →
    ∃ (d : Bits) (p : List ErrorPos),
      exec .hamDec s = .next { s with bout0 := some d, epos := some p, status := 0, busy := false } ∧
      d.length = 4 * (b.length / 7) ∧ p.length = b.length / 7 ∧
      ∀ (k : Nat) (c1 c2 c3 c4 c5 c6 c7 : Bit), k < b.length / 7 →
        (b.drop (7 * k)).take 7 = [c1, c2, c3, c4, c5, c6, c7] →
          (d.drop (4 * k)).take 4 = (decodeBlock c1 c2 c3 c4 c5 c6 c7).1 ∧
          p[k]? = some (decodeBlock c1 c2 c3 c4 c5 c6 c7).2) ∧
  ∀ (s : State) (b : Bits), s.bin0 = some b → fitsBits s.caps b.length = true → b.length % 7 ≠ 0 →
    exec .hamDec s = .next { s with bout0 := none, epos := none, status := 1, busy := false }

/-- R92, R93: HAM.DEC of any number of codewords, each with at most one position flipped, gives all their data bits in order and
the flipped data positions. -/
def Obligations.HamDecRecoversDamagedCodewords : Prop :=
  ∀ (s : State) (blocks : List ((Bit × Bit × Bit × Bit) × Fin 8)),
    s.bin0 = some (blocks.flatMap fun x => flipAt x.2.val (codeword x.1.1 x.1.2.1 x.1.2.2.1 x.1.2.2.2)) →
    fitsBits s.caps (7 * blocks.length) = true →
      exec .hamDec s = .next { s with
        bout0 := some (blocks.flatMap fun x => [x.1.1, x.1.2.1, x.1.2.2.1, x.1.2.2.2])
        epos := some (blocks.map fun x => if x.2.val ≤ 4 then BitVec.ofNat 3 x.2.val else 0)
        status := 0
        busy := false }

/-- R66: no operation produces an error position above 4. -/
def Obligations.ErrorPositionsNeverExceedFour : Prop :=
  ∀ (i : Instr) (s t : State) (p : List ErrorPos), .epos ∈ destinationsOf i → exec i s = .next t → t.epos = some p →
    ∀ x ∈ p, x.toNat ≤ 4

/-! ### Bit packer -/

/-- R110, R111: BP.PACK makes of each whole group of 8 bits a symbol, first bit most significant, drops the rest and raises no
error, where the symbols fit. -/
def Obligations.PackMakesSymbolsMostSignificantFirst : Prop :=
  encode .bpPack = 0x3 ∧
  ∀ (s : State) (b : Bits), s.bin0 = some b → fitsBits s.caps b.length = true → fitsSyms s.caps (b.length / 8) = true →
    ∃ l : Symbols,
      exec .bpPack s = .next { s with sout := some l, status := 0, busy := false } ∧ l.length = b.length / 8 ∧
      ∀ g : Nat, g < b.length / 8 →
        (l.getD g 0).toNat =
          128 * (b.getD (8 * g) false).toNat + 64 * (b.getD (8 * g + 1) false).toNat
            + 32 * (b.getD (8 * g + 2) false).toNat + 16 * (b.getD (8 * g + 3) false).toNat
            + 8 * (b.getD (8 * g + 4) false).toNat + 4 * (b.getD (8 * g + 5) false).toNat
            + 2 * (b.getD (8 * g + 6) false).toNat + (b.getD (8 * g + 7) false).toNat

/-- R112, R113: BP.UNPACK gives bit 7-j of symbol g as bit 8g+j and raises no error, where the bits fit. -/
def Obligations.UnpackGivesEightBitsASymbol : Prop :=
  encode .bpUnpack = 0x4 ∧
  ∀ (s : State) (l : Symbols), s.sin = some l → fitsSyms s.caps l.length = true → fitsBits s.caps (8 * l.length) = true →
    ∃ b : Bits,
      exec .bpUnpack s = .next { s with bout0 := some b, status := 0, busy := false } ∧ b.length = 8 * l.length ∧
      ∀ g j : Nat, g < l.length → j < 8 → b[8 * g + j]? = some ((l.getD g 0).getLsbD (7 - j))

/-- R114: the round-trip laws (a) to (d). -/
def Obligations.PackAndUnpackAreInverse : Prop :=
  (∀ l : Symbols, pack (unpack l) = l) ∧
  (∀ b : Bits, b.length % 8 = 0 → unpack (pack b) = b) ∧
  (∀ b : Bits, unpack (pack b) = b.take (8 * (b.length / 8))) ∧
  (∀ b : Bits, (pack b).length = b.length / 8) ∧ ∀ l : Symbols, (unpack l).length = 8 * l.length

/-! ### Stream cipher -/

/-- R121, R120, R27: for every token k of the plaintext's length there is a run of SC.ENC that draws it, and in every state the token
is the bits drawn there: BOUT1 is the token and bit i of BOUT0 is plaintext bit i xor token bit i. The spec puts the drawn bits
under no law; that they are first those of the list `source` and then free bits, and that a run drops what it drew from `source` and
counts it in `drawn`, is the model's choice (log 5). -/
def Obligations.EncryptionUsesExactlyTheDrawnBits : Prop :=
  encode .scEnc = 0x5 ∧
  (∀ (s : State) (p k later : Bits), s.bin0 = some p → fitsBits s.caps p.length = true → k.length = p.length →
    s.source = k ++ later →
      ∃ c : Bits,
        exec .scEnc s = .next { s with
          bout0 := some c
          bout1 := some k
          status := 0
          busy := false
          source := later
          drawn := s.drawn + p.length } ∧
        c.length = p.length ∧ ∀ i : Nat, i < p.length → c.getD i false = (p.getD i false ^^ k.getD i false)) ∧
  ∀ (s : State) (p : Bits), s.bin0 = some p → fitsBits s.caps p.length = true →
    ∃ c : Bits,
      exec .scEnc s = .next { s with
        bout0 := some c
        bout1 := some (s.draws p.length)
        status := 0
        busy := false
        source := s.source.drop p.length
        drawn := s.drawn + p.length } ∧
      (s.draws p.length).length = p.length ∧
      (s.draws p.length).take s.source.length = s.source.take p.length ∧ c.length = p.length ∧
      ∀ i : Nat, i < p.length → c.getD i false = (p.getD i false ^^ (s.draws p.length).getD i false)

/-- R122, R120: SC.DEC gives the xor of its two operands bit by bit; unequal lengths are LengthMismatch. -/
def Obligations.DecryptionXorsOrFails : Prop :=
  encode .scDec = 0x6 ∧
  (∀ (s : State) (c k : Bits), s.bin0 = some c → s.bin1 = some k → fitsBits s.caps c.length = true →
    c.length = k.length →
      ∃ p : Bits,
        exec .scDec s = .next { s with bout0 := some p, status := 0, busy := false } ∧ p.length = c.length ∧
        ∀ i : Nat, i < c.length → p.getD i false = (c.getD i false ^^ k.getD i false)) ∧
  ∀ (s : State) (c k : Bits), s.bin0 = some c → s.bin1 = some k → fitsBits s.caps c.length = true →
    fitsBits s.caps k.length = true → c.length ≠ k.length →
      exec .scDec s = .next { s with bout0 := none, status := 2, busy := false }

/-- R123: SC.DEC on the ciphertext and token of any SC.ENC run gives that run's plaintext back, and SC.DEC with a chosen pad gives
the ciphertext SC.ENC gives when it draws that pad. -/
def Obligations.DecryptionInvertsEncryption : Prop :=
  (∀ p k : Bits, p.length = k.length → xorSeq (xorSeq p k) k = p) ∧
  (∀ (s t : State), exec .scEnc s = .next t →
    ∃ u : State, exec .scDec { t with bin0 := t.bout0, bin1 := t.bout1 } = .next u ∧ u.bout0 = s.bin0 ∧ u.status = 0) ∧
  ∀ (s : State) (p k later : Bits), s.bin0 = some p → s.bin1 = some k → fitsBits s.caps p.length = true →
    k.length = p.length → s.source = k ++ later →
      ∃ t u : State, exec .scEnc s = .next t ∧ exec .scDec s = .next u ∧ t.bout0 = u.bout0

/-! ### Huffman encoder -/

/-- R130, R132: HUF.FREQ counts the occurrences of every symbol value; the counts sum to the stream's length. -/
def Obligations.FrequencyTableCountsOccurrences : Prop :=
  encode .hufFreq = 0x7 ∧
  ∀ (s : State) (l : Symbols), s.sin = some l → fitsSyms s.caps l.length = true → fitsCount s.caps l.length = true →
    ∃ t : FreqTable,
      exec .hufFreq s = .next { s with ft := some t, status := 0, busy := false } ∧
      (∀ v : Symbol, countOf t v = (l.filter fun w => w = v).length) ∧ t.toList.sum = l.length

/-- R131, R71: `FT.order` lists every symbol once, by descending count and then ascending value, so that the symbols of non-zero
count are its first m. -/
def Obligations.FrequencyOrderIsDescending : Prop :=
  ∀ t : FreqTable,
    (frequencyOrder t).Perm allSymbols ∧
    (frequencyOrder t).Pairwise (fun v w => countOf t w < countOf t v ∨ (countOf t v = countOf t w ∧ v.toNat < w.toNat)) ∧
    ∀ v : Symbol, v ∈ (frequencyOrder t).take (nonzeroSymbols t).length ↔ 0 < countOf t v

/-- R134: the node selected is the one with the least (frequency, id); the others remain. With different ids it is strictly the
least, so the selection is unique. -/
def Obligations.SelectionTakesTheLeastNode : Prop :=
  ∀ (x : Candidate) (rest : List Candidate), ((x :: rest).map Candidate.id).Nodup →
    ((selectLeast x rest).1 :: (selectLeast x rest).2).Perm (x :: rest) ∧
    ∀ c ∈ (selectLeast x rest).2,
      (selectLeast x rest).1.tree.frequency < c.tree.frequency ∨
        ((selectLeast x rest).1.tree.frequency = c.tree.frequency ∧ (selectLeast x rest).1.id < c.id)

/-- R135: one turn of the loop replaces the least node a and the second least node b by an Internal node of their summed
frequency, left b, right a, with the next id. -/
def Obligations.OneMergeJoinsTheTwoLeastNodes : Prop :=
  ∀ (steps nextId : Nat) (x y a b : Candidate) (ys rest : List Candidate),
    (a :: b :: rest).Perm (x :: y :: ys) →
    (∀ c ∈ b :: rest, a.tree.frequency < c.tree.frequency ∨ (a.tree.frequency = c.tree.frequency ∧ a.id < c.id)) →
    (∀ c ∈ rest, b.tree.frequency < c.tree.frequency ∨ (b.tree.frequency = c.tree.frequency ∧ b.id < c.id)) →
      ∃ others : List Candidate, others.Perm rest ∧
        mergeLoop (steps + 1) nextId x (y :: ys) =
          mergeLoop steps (nextId + 1)
            { id := nextId, tree := .internal (a.tree.frequency + b.tree.frequency) b.tree a.tree } others

/-- R133, R136: where some count is not 0, HUF.TREE gives a tree with exactly one leaf for each symbol of non-zero count, with
that count, one Internal node fewer than leaves, every Internal frequency the sum of its children's, and the root's the sum of
all counts, which must fit a count (R3, R53). -/
def Obligations.TreeHasOneLeafForEachSymbolPresent : Prop :=
  encode .hufTree = 0x8 ∧
  ∀ (s : State) (t : FreqTable), s.ft = some t → fitsCounts s.caps t = true → fitsCount s.caps t.toList.sum = true →
    (∃ v : Symbol, 0 < countOf t v) →
      ∃ n : HuffmanNode,
        exec .hufTree s = .next { s with tree := some n, status := 0, busy := false } ∧
        n.leaves.Perm ((nonzeroSymbols t).map fun v => (v, countOf t v)) ∧
        n.internals + 1 = (nonzeroSymbols t).length ∧ n.sumsHold ∧ n.frequency = t.toList.sum

/-- R135, R134: of two symbols the one of lower count, or of equal count and lower value, is the right leaf (code 1), the other
the left one (code 0). -/
def Obligations.TwoSymbolTreePutsTheRarerRight : Prop :=
  ∀ (s : State) (t : FreqTable) (v w : Symbol), s.ft = some t → fitsCounts s.caps t = true →
    fitsCount s.caps (countOf t v + countOf t w) = true → 0 < countOf t v → v ≠ w →
    (countOf t v < countOf t w ∨ (countOf t v = countOf t w ∧ v.toNat < w.toNat)) →
    (∀ u : Symbol, u ≠ v → u ≠ w → countOf t u = 0) →
      exec .hufTree s = .next { s with
        tree := some (.internal (countOf t v + countOf t w) (.leaf w (countOf t w)) (.leaf v (countOf t v)))
        status := 0
        busy := false }

/-- R137: with exactly one non-zero count the tree is that one Leaf. -/
def Obligations.SingleSymbolTreeIsALeaf : Prop :=
  ∀ (s : State) (t : FreqTable) (v : Symbol), s.ft = some t → fitsCounts s.caps t = true → 0 < countOf t v →
    (∀ u : Symbol, u ≠ v → countOf t u = 0) →
      exec .hufTree s = .next { s with tree := some (.leaf v (countOf t v)), status := 0, busy := false }

/-- R138: when all 256 counts are 0, HUF.TREE raises EmptyAlphabet, STATUS 5, and TREE holds no value (R33). -/
def Obligations.EmptyAlphabetIsAnError : Prop :=
  ∀ (s : State) (t : FreqTable), s.ft = some t → fitsCounts s.caps t = true → (∀ v : Symbol, countOf t v = 0) →
    exec .hufTree s = .next { s with tree := none, status := 5, busy := false }

/-- R140, R141: with an Internal root HUF.CODES gives a symbol the code c exactly when c is the path to a leaf of that symbol; the
only symbol of a single Leaf gets the code 0. -/
def Obligations.CodesAreThePathsToTheLeaves : Prop :=
  encode .hufCodes = 0x9 ∧
  (∀ (s : State) (f : Nat) (l r : HuffmanNode), s.tree = some (.internal f l r) →
    (HuffmanNode.internal f l r).symbols.Nodup →
      ∃ t : CodeTable,
        exec .hufCodes s = .next { s with ct := some t, status := 0, busy := false } ∧
        ∀ (v : Symbol) (c : Bits),
          codeOf t v = some c ↔ ∃ g : Nat, (HuffmanNode.internal f l r).follow c = some (.leaf v g)) ∧
  ∀ (s : State) (f : Nat) (v : Symbol), s.tree = some (.leaf v f) →
    ∃ t : CodeTable,
      exec .hufCodes s = .next { s with ct := some t, status := 0, busy := false } ∧
      codeOf t v = some [false] ∧ ∀ w : Symbol, w ≠ v → codeOf t w = none

/-- R145 (a), (b), (c): the codes of a tree built from at least two symbols have 1 to m-1 bits, none is a prefix of another, and
their Kraft sum is 1 (multiplied by 2^255 here). -/
def Obligations.BuiltCodesFormAPrefixCode : Prop :=
  ∀ (t : FreqTable) (n : HuffmanNode), buildTree t = .ok n → 2 ≤ (nonzeroSymbols t).length →
    (∀ v : Symbol, (codeOf (assignCodes n) v).isSome = decide (0 < countOf t v)) ∧
    (∀ (v : Symbol) (c : Bits), codeOf (assignCodes n) v = some c →
      1 ≤ c.length ∧ c.length ≤ (nonzeroSymbols t).length - 1 ∧ c.length ≤ 255) ∧
    (∀ (v w : Symbol) (c d : Bits), v ≠ w → codeOf (assignCodes n) v = some c → codeOf (assignCodes n) w = some d →
      ¬ c <+: d) ∧
    (allSymbols.map fun v =>
      match codeOf (assignCodes n) v with
      | none => 0
      | some c => 2 ^ (255 - c.length)).sum = 2 ^ 255

/-- R143, R144: HUF.ENC concatenates the codes of the symbols in input order where they fit; a symbol without an entry is
UnknownSymbol. -/
def Obligations.EncodingConcatenatesCodesOrFails : Prop :=
  encode .hufEnc = 0xA ∧
  (∀ (s : State) (l : Symbols) (t : CodeTable), s.sin = some l → s.ct = some t → fitsSyms s.caps l.length = true →
    (∀ v ∈ l, (codeOf t v).isSome = true) →
    fitsBits s.caps (l.flatMap fun v => (codeOf t v).getD []).length = true →
      exec .hufEnc s = .next { s with
        bout0 := some (l.flatMap fun v => (codeOf t v).getD [])
        status := 0
        busy := false }) ∧
  ∀ (s : State) (l : Symbols) (t : CodeTable), s.sin = some l → s.ct = some t → fitsSyms s.caps l.length = true →
    (∃ v ∈ l, codeOf t v = none) →
      exec .hufEnc s = .next { s with bout0 := none, status := 3, busy := false }

/-! ### Huffman decoder -/

/-- R160: with an Internal root HUF.DEC of a concatenation of paths to leaves gives those leaves' symbols in order, where they
fit; of any other bits it is TruncatedStream. -/
def Obligations.DecodingWalksToLeavesOrIsTruncated : Prop :=
  encode .hufDec = 0xB ∧
  (∀ (s : State) (f : Nat) (l r : HuffmanNode) (paths : List Bits) (out : Symbols),
    s.tree = some (.internal f l r) → s.bin0 = some paths.flatten → fitsBits s.caps paths.flatten.length = true →
    List.Forall₂ (fun c v => ∃ g : Nat, (HuffmanNode.internal f l r).follow c = some (.leaf v g)) paths out →
    fitsSyms s.caps out.length = true →
      exec .hufDec s = .next { s with sout := some out, status := 0, busy := false }) ∧
  ∀ (s : State) (f : Nat) (l r : HuffmanNode) (b : Bits),
    s.tree = some (.internal f l r) → s.bin0 = some b → fitsBits s.caps b.length = true →
    (¬ ∃ (paths : List Bits) (out : Symbols), b = paths.flatten ∧
      List.Forall₂ (fun c v => ∃ g : Nat, (HuffmanNode.internal f l r).follow c = some (.leaf v g)) paths out) →
      exec .hufDec s = .next { s with sout := none, status := 4, busy := false }

/-- R161: with a Leaf root every 0 bit is the symbol and a 1 bit anywhere is InvalidCode. -/
def Obligations.SingleLeafDecodingAcceptsOnlyZeros : Prop :=
  (∀ (s : State) (v : Symbol) (f n : Nat), s.tree = some (.leaf v f) → s.bin0 = some (List.replicate n false) →
    fitsBits s.caps n = true → fitsSyms s.caps n = true →
      exec .hufDec s = .next { s with sout := some (List.replicate n v), status := 0, busy := false }) ∧
  ∀ (s : State) (v : Symbol) (f : Nat) (b : Bits), s.tree = some (.leaf v f) → s.bin0 = some b →
    fitsBits s.caps b.length = true → true ∈ b →
      exec .hufDec s = .next { s with sout := none, status := 6, busy := false }

/-- R164 (a), (d): bits appended to a stream that decodes are decoded as further symbols, so a stream cut at a code boundary
decodes to fewer. -/
def Obligations.AppendedStreamsDecodeInTurn : Prop :=
  ∀ (n : HuffmanNode) (b c : Bits) (l : Symbols), decodeBits n b = .ok l →
    ∀ k : Symbols, decodeBits n (b ++ c) = .ok (l ++ k) ↔ decodeBits n c = .ok k

/-- R163: for every non-empty stream, HUF.FREQ, HUF.TREE, HUF.CODES, HUF.ENC and then HUF.DEC of the encoded stream all succeed and
give the stream back, with capacities unbounded (R3). -/
def Obligations.HuffmanRoundTrip : Prop :=
  ∀ (s : State) (l : Symbols), l ≠ [] → s.sin = some l → s.caps = Capacities.unbounded →
    ∃ s1 s2 s3 s4 s5 : State,
      exec .hufFreq s = .next s1 ∧ exec .hufTree s1 = .next s2 ∧ exec .hufCodes s2 = .next s3 ∧
      exec .hufEnc s3 = .next s4 ∧ exec .hufDec { s4 with bin0 := s4.bout0 } = .next s5 ∧
      s1.status = 0 ∧ s2.status = 0 ∧ s3.status = 0 ∧ s4.status = 0 ∧ s5.status = 0 ∧ s5.sout = some l

/-! ### Rules of every operation -/

/-- R34: an operation changes only its destinations, STATUS and BUSY; its sources, every other element and mark, CMD, and the
model's own fields keep their values, but that SC.ENC advances the random-bit source (log 5). -/
def Obligations.OperationsChangeOnlyTheirDestinations : Prop :=
  ∀ (i : Instr) (s t : State), exec i s = .next t →
    (∀ e : Element, e ∉ destinationsOf i → t.sameAt s e ∧ t.holds e = s.holds e) ∧
    (∀ e ∈ sourcesOf i, t.sameAt s e) ∧
    t.cmd = s.cmd ∧ t.caps = s.caps ∧ t.program = s.program ∧ t.reads = s.reads ∧
    (i ≠ .scEnc → t.source = s.source ∧ t.drawn = s.drawn)

/-- R32, R33: an operation that ends leaves BUSY 0 and either STATUS 0 with every destination holding a value, or the code of an
error it can raise (R170) with no destination holding one. -/
def Obligations.OperationsEndInSuccessOrAListedError : Prop :=
  ∀ (i : Instr) (s t : State), exec i s = .next t →
    t.busy = false ∧
    ((t.status = 0 ∧ ∀ e ∈ destinationsOf i, t.holds e = true) ∨
      ∃ err ∈ errorsOf i, t.status = err.code ∧ ∀ e ∈ destinationsOf i, t.holds e = false)

/-- R31, R3: with capacities unbounded every operation whose sources hold values ends in a next state. -/
def Obligations.OperationsRunWhenTheirSourcesHoldValues : Prop :=
  ∀ (i : Instr) (s : State), s.caps = Capacities.unbounded → (∀ e ∈ sourcesOf i, s.holds e = true) →
    ∃ t : State, exec i s = .next t

/-- R31 (2), R13: an operation with a source that holds no value is refused, and a refusal for that reason names such a source.
That it is refused, not given an effect, is what 93_implementation_defined.md U1 asks of a model. -/
def Obligations.MissingSourceIsRefused : Prop :=
  (∀ (i : Instr) (s : State), (∃ e ∈ sourcesOf i, s.holds e = false) → ∃ r : Refusal, exec i s = .refused r) ∧
  ∀ (i : Instr) (s : State) (e : Element), exec i s = .refused (.sourceHoldsNoValue e) →
    e ∈ sourcesOf i ∧ s.holds e = false

/-- R53: an operand over its capacity, and a result over its capacity where the sources fit, are refused and not cut short. That
an operand is looked at when it is read, and a result when the operation would complete, is the model's reading (log 11). -/
def Obligations.OverCapacityIsRefused : Prop :=
  (∀ (i : Instr) (s : State) (b : Bits), .bin0 ∈ sourcesOf i → s.bin0 = some b → fitsBits s.caps b.length = false →
    exec i s = .refused (.overCapacity .bin0)) ∧
  (∀ (i : Instr) (s : State) (l : Symbols), .sin ∈ sourcesOf i → s.sin = some l → fitsSyms s.caps l.length = false →
    exec i s = .refused (.overCapacity .sin)) ∧
  (∀ (s : State) (c k : Bits), s.bin0 = some c → fitsBits s.caps c.length = true → s.bin1 = some k →
    fitsBits s.caps k.length = false → exec .scDec s = .refused (.overCapacity .bin1)) ∧
  (∀ (s : State) (t : FreqTable), s.ft = some t → fitsCounts s.caps t = false →
    exec .hufTree s = .refused (.overCapacity .ft)) ∧
  (∀ (s : State) (b : Bits), s.bin0 = some b → fitsBits s.caps b.length = true → fitsSyms s.caps (b.length / 8) = false →
    exec .bpPack s = .refused (.overCapacity .sout)) ∧
  (∀ (s : State) (l : Symbols), s.sin = some l → fitsSyms s.caps l.length = true → fitsBits s.caps (8 * l.length) = false →
    exec .bpUnpack s = .refused (.overCapacity .bout0)) ∧
  (∀ (s : State) (l : Symbols), s.sin = some l → fitsSyms s.caps l.length = true → fitsCount s.caps l.length = false →
    exec .hufFreq s = .refused (.overCapacity .ft)) ∧
  (∀ (s : State) (t : FreqTable), s.ft = some t → fitsCounts s.caps t = true → fitsCount s.caps t.toList.sum = false →
    (∃ v : Symbol, 0 < countOf t v) → exec .hufTree s = .refused (.overCapacity .tree)) ∧
  (∀ (s : State) (l : Symbols) (t : CodeTable), s.sin = some l → s.ct = some t → fitsSyms s.caps l.length = true →
    (∀ v ∈ l, (codeOf t v).isSome = true) →
    fitsBits s.caps (l.flatMap fun v => (codeOf t v).getD []).length = false →
      exec .hufEnc s = .refused (.overCapacity .bout0)) ∧
  ∀ (s : State) (b : Bits) (n : HuffmanNode) (out : Symbols), s.bin0 = some b → fitsBits s.caps b.length = true →
    s.tree = some n → decodeBits n b = .ok out → fitsSyms s.caps out.length = false →
      exec .hufDec s = .refused (.overCapacity .sout)

/-- R207: an operation's results and STATUS are a function of its sources, and for SC.ENC of the drawn bits, one for each bit of
BIN0 (R121); the bits the source would answer later need not agree. The capacities, a parameter of the implementation, must agree
too (log 4). -/
def Obligations.ResultsDependOnlyOnSources : Prop :=
  ∀ (i : Instr) (s t : State), s.caps = t.caps → (∀ e ∈ sourcesOf i, s.sameAt t e) →
    (i = .scEnc → ∀ b : Bits, s.bin0 = some b → s.draws b.length = t.draws b.length) →
      match exec i s, exec i t with
      | .next s', .next t' => s'.status = t'.status ∧ ∀ e ∈ destinationsOf i, s'.sameAt t' e
      | .refused a, .refused b => a = b
      | _, _ => False

/-- R180: "reissuing the failed operation on unchanged sources fails in the same way"; the second failure changes nothing. -/
def Obligations.FailedOperationsFailAgain : Prop :=
  ∀ (i : Instr) (s t : State), exec i s = .next t → t.status ≠ 0 → exec i t = .next t

/-! ### Invariants of every step -/

/-- The reset state satisfies both invariants. -/
def Obligations.ResetSatisfiesTheInvariants : Prop :=
  State.reset.Legal ∧ State.reset.WithinCapacity

/-- R20, R21, R22, R23, R66: every step of a legal state gives a legal state: idle, nothing on CMD, error positions 0 to 4, leaf
symbols of TREE pairwise different, entries of CT absent or 1 to 255 bits. -/
def Obligations.StepsKeepStatesLegal : Prop :=
  ∀ s t : State, s.Legal → step s = .next t → t.Legal

/-- R3, R11, R12, R19: every step keeps every buffer within its capacity and every count below 2^CNT_W. -/
def Obligations.StepsKeepCapacities : Prop :=
  ∀ s t : State, s.WithinCapacity → step s = .next t → t.WithinCapacity ∧ t.caps = s.caps

/-! ### Host access -/

/-- R54: a host write to BIN0, BIN1, SIN, FT, TREE or CT of a value of the element replaces its whole value and nothing else. -/
def Obligations.HostWriteReplacesTheElement : Prop :=
  ∀ (s : State) (rest : List HostAction), s.busy = false →
    (∀ b : Bits, s.program = .wrBin0 b :: rest → fitsBits s.caps b.length = true →
      step s = .next { s with program := rest, bin0 := some b }) ∧
    (∀ b : Bits, s.program = .wrBin1 b :: rest → fitsBits s.caps b.length = true →
      step s = .next { s with program := rest, bin1 := some b }) ∧
    (∀ l : Symbols, s.program = .wrSin l :: rest → fitsSyms s.caps l.length = true →
      step s = .next { s with program := rest, sin := some l }) ∧
    (∀ t : FreqTable, s.program = .wrFt t :: rest → fitsCounts s.caps t = true →
      step s = .next { s with program := rest, ft := some t }) ∧
    (∀ t : HuffmanNode, s.program = .wrTree t :: rest → t.symbols.Nodup →
      step s = .next { s with program := rest, tree := some t }) ∧
    ∀ t : CodeTable, s.program = .wrCt t :: rest →
      (∀ (v : Symbol) (c : Bits), codeOf t v = some c → 1 ≤ c.length ∧ c.length ≤ 255) →
        step s = .next { s with program := rest, ct := some t }

/-- R20, R21, U3: a host write of a TREE that repeats a leaf symbol, or of a CT with an entry that is empty or over 255 bits, is
refused; so is a write over capacity (R53, log 11). -/
def Obligations.IllegalHostWriteIsRefused : Prop :=
  ∀ (s : State) (rest : List HostAction), s.busy = false →
    (∀ t : HuffmanNode, s.program = .wrTree t :: rest → ¬ t.symbols.Nodup → step s = .refused .treeRepeatsSymbol) ∧
    (∀ (t : CodeTable) (v : Symbol) (c : Bits), s.program = .wrCt t :: rest → codeOf t v = some c →
      (c = [] ∨ 255 < c.length) → step s = .refused .codeEntryIllegal) ∧
    (∀ b : Bits, s.program = .wrBin0 b :: rest → fitsBits s.caps b.length = false →
      step s = .refused (.overCapacity .bin0)) ∧
    (∀ b : Bits, s.program = .wrBin1 b :: rest → fitsBits s.caps b.length = false →
      step s = .refused (.overCapacity .bin1)) ∧
    (∀ t : FreqTable, s.program = .wrFt t :: rest → fitsCounts s.caps t = false →
      step s = .refused (.overCapacity .ft)) ∧
    ∀ l : Symbols, s.program = .wrSin l :: rest → fitsSyms s.caps l.length = false →
      step s = .refused (.overCapacity .sin)

/-- R48, R54, R13: a host read changes nothing in the block, whatever is read, and gives the value read; a read of a data element that
holds no value is refused, naming that element (U2). What can be read, and that a value read is kept in the list `reads`, is the
model's choice (log 8). -/
def Obligations.HostReadDeliversTheValue : Prop :=
  ∀ (s : State) (rest : List HostAction), s.busy = false →
    (∀ r : Readable, s.program = .rd r :: rest →
      (∃ v : ReadValue, step s = .next { s with program := rest, reads := s.reads ++ [(r, v)] }) ∨
      ∃ e : Element, s.holds e = false ∧ step s = .refused (.readHoldsNoValue e)) ∧
    (∀ (r : Readable) (e : Element),
      (r, e) ∈ [(Readable.bout0, Element.bout0), (.bout1, .bout1), (.sout, .sout), (.epos, .epos), (.ft, .ft), (.ftOrder, .ft),
        (.tree, .tree), (.ct, .ct)] →
      s.program = .rd r :: rest → s.holds e = false → step s = .refused (.readHoldsNoValue e)) ∧
    (∀ b : Bits, s.program = .rd .bout0 :: rest → s.bout0 = some b →
      step s = .next { s with program := rest, reads := s.reads ++ [(.bout0, .bits b)] }) ∧
    (∀ b : Bits, s.program = .rd .bout1 :: rest → s.bout1 = some b →
      step s = .next { s with program := rest, reads := s.reads ++ [(.bout1, .bits b)] }) ∧
    (∀ l : Symbols, s.program = .rd .sout :: rest → s.sout = some l →
      step s = .next { s with program := rest, reads := s.reads ++ [(.sout, .syms l)] }) ∧
    (∀ p : List ErrorPos, s.program = .rd .epos :: rest → s.epos = some p →
      step s = .next { s with program := rest, reads := s.reads ++ [(.epos, .positions p)] }) ∧
    (∀ t : FreqTable, s.program = .rd .ft :: rest → s.ft = some t →
      step s = .next { s with program := rest, reads := s.reads ++ [(.ft, .counts t)] }) ∧
    (∀ t : FreqTable, s.program = .rd .ftOrder :: rest → s.ft = some t →
      step s = .next { s with program := rest, reads := s.reads ++ [(.ftOrder, .syms (frequencyOrder t))] }) ∧
    (∀ t : HuffmanNode, s.program = .rd .tree :: rest → s.tree = some t →
      step s = .next { s with program := rest, reads := s.reads ++ [(.tree, .tree t)] }) ∧
    (∀ t : CodeTable, s.program = .rd .ct :: rest → s.ct = some t →
      step s = .next { s with program := rest, reads := s.reads ++ [(.ct, .codes t)] }) ∧
    (s.program = .rd .status :: rest →
      step s = .next { s with program := rest, reads := s.reads ++ [(.status, .status s.status)] }) ∧
    (s.program = .rd .busy :: rest →
      step s = .next { s with program := rest, reads := s.reads ++ [(.busy, .flag s.busy)] }) ∧
    ∀ e : Element, s.program = .rd (.mark e) :: rest →
      step s = .next { s with program := rest, reads := s.reads ++ [(.mark e, .flag (s.holds e))] }

/-- R76: `MOV` reads its source and makes a write of the value read the host's next action; an element without a value cannot be
moved (U2). That the two host actions are two steps is the model's choice (log 9). -/
def Obligations.MoveReadsThenWrites : Prop :=
  ∀ (s : State) (rest : List HostAction), s.busy = false →
    (∀ b : Bits, s.program = .movBits .bin0 .bout0 :: rest → s.bout0 = some b →
      step s = .next { s with program := .wrBin0 b :: rest, reads := s.reads ++ [(.bout0, .bits b)] }) ∧
    (∀ b : Bits, s.program = .movBits .bin0 .bout1 :: rest → s.bout1 = some b →
      step s = .next { s with program := .wrBin0 b :: rest, reads := s.reads ++ [(.bout1, .bits b)] }) ∧
    (∀ b : Bits, s.program = .movBits .bin1 .bout0 :: rest → s.bout0 = some b →
      step s = .next { s with program := .wrBin1 b :: rest, reads := s.reads ++ [(.bout0, .bits b)] }) ∧
    (∀ b : Bits, s.program = .movBits .bin1 .bout1 :: rest → s.bout1 = some b →
      step s = .next { s with program := .wrBin1 b :: rest, reads := s.reads ++ [(.bout1, .bits b)] }) ∧
    (∀ dst : BitOperand, s.program = .movBits dst .bout0 :: rest → s.bout0 = none →
      step s = .refused (.readHoldsNoValue .bout0)) ∧
    (∀ dst : BitOperand, s.program = .movBits dst .bout1 :: rest → s.bout1 = none →
      step s = .refused (.readHoldsNoValue .bout1)) ∧
    (∀ l : Symbols, s.program = .movSyms :: rest → s.sout = some l →
      step s = .next { s with program := .wrSin l :: rest, reads := s.reads ++ [(.sout, .syms l)] }) ∧
    (s.program = .movSyms :: rest → s.sout = none → step s = .refused (.readHoldsNoValue .sout))

/-- R76: HUF.BUILD and HUF.COMPRESS are HUF.FREQ, HUF.TREE, HUF.CODES (and HUF.ENC), each after the first issued only while STATUS is
0. That a pseudo-operation issues HUF.FREQ and puts guarded CMD writes first in the host's list is the model's choice (log 9). -/
def Obligations.PseudoOperationsStopAtTheFirstFailure : Prop :=
  ∀ (s : State) (rest : List HostAction), s.busy = false →
    (s.program = .hufBuild :: rest →
      step s = exec .hufFreq { s with program := .wrCmdIfOk 0x8 :: .wrCmdIfOk 0x9 :: rest, cmd := none, busy := true }) ∧
    (s.program = .hufCompress :: rest →
      step s = exec .hufFreq { s with
        program := .wrCmdIfOk 0x8 :: .wrCmdIfOk 0x9 :: .wrCmdIfOk 0xA :: rest
        cmd := none
        busy := true }) ∧
    (∀ c : Command, s.program = .wrCmdIfOk c :: rest → s.status ≠ 0 → step s = .next { s with program := rest }) ∧
    ∀ c : Command, s.program = .wrCmdIfOk c :: rest → s.status = 0 → step s = step { s with program := .wrCmd c :: rest }

/-- R203, U5: while BUSY is 1 every host action but reset and reading BUSY or STATUS is refused. That those two reads stay allowed
is the model's reading (log 7). -/
def Obligations.HostActionWhileBusyIsRefused : Prop :=
  ∀ (s : State) (a : HostAction) (rest : List HostAction), s.busy = true → s.program = a :: rest →
    a ≠ .reset → a ≠ .rd .busy → a ≠ .rd .status → step s = .refused .hostActsWhileBusy

/-- R181: reading STATUS after an operation that failed is what shows the failure: no failure has been read after it exactly when
none had been and STATUS is 0. The model's choices in it: what the host has read is the list `reads` (log 8), and STATUS is read
also in a state with BUSY 1, which R54 does not grant (log 7). -/
def Obligations.ReadingStatusShowsAFailure : Prop :=
  ∀ (s : State) (rest : List HostAction), s.program = .rd .status :: rest →
    ∃ t : State, step s = .next t ∧ t.status = s.status ∧ (t.noFailureRead ↔ s.noFailureRead ∧ s.status = 0)
end

