-- ==== Sys2Proof/Laws/State.lean ====
section
/-! SUPPORT. The state after each named operation, field by field, so that no proof unfolds a record update; and the same facts
for the elements by name (`sameAt`, `holds`). -/

namespace Sys2Proof.Machine

section
variable (s : State) (a : Bits)
@[simp] theorem State.setBin0_bin0 : (s.setBin0 a).bin0 = some a := rfl
@[simp] theorem State.setBin0_bin1 : (s.setBin0 a).bin1 = s.bin1 := rfl
@[simp] theorem State.setBin0_sin : (s.setBin0 a).sin = s.sin := rfl
@[simp] theorem State.setBin0_bout0 : (s.setBin0 a).bout0 = s.bout0 := rfl
@[simp] theorem State.setBin0_bout1 : (s.setBin0 a).bout1 = s.bout1 := rfl
@[simp] theorem State.setBin0_sout : (s.setBin0 a).sout = s.sout := rfl
@[simp] theorem State.setBin0_epos : (s.setBin0 a).epos = s.epos := rfl
@[simp] theorem State.setBin0_ft : (s.setBin0 a).ft = s.ft := rfl
@[simp] theorem State.setBin0_tree : (s.setBin0 a).tree = s.tree := rfl
@[simp] theorem State.setBin0_ct : (s.setBin0 a).ct = s.ct := rfl
@[simp] theorem State.setBin0_cmd : (s.setBin0 a).cmd = s.cmd := rfl
@[simp] theorem State.setBin0_busy : (s.setBin0 a).busy = s.busy := rfl
@[simp] theorem State.setBin0_status : (s.setBin0 a).status = s.status := rfl
@[simp] theorem State.setBin0_caps : (s.setBin0 a).caps = s.caps := rfl
@[simp] theorem State.setBin0_source : (s.setBin0 a).source = s.source := rfl
@[simp] theorem State.setBin0_drawn : (s.setBin0 a).drawn = s.drawn := rfl
@[simp] theorem State.setBin0_program : (s.setBin0 a).program = s.program := rfl
@[simp] theorem State.setBin0_reads : (s.setBin0 a).reads = s.reads := rfl
end

section
variable (s : State) (a : Bits)
@[simp] theorem State.setBin1_bin0 : (s.setBin1 a).bin0 = s.bin0 := rfl
@[simp] theorem State.setBin1_bin1 : (s.setBin1 a).bin1 = some a := rfl
@[simp] theorem State.setBin1_sin : (s.setBin1 a).sin = s.sin := rfl
@[simp] theorem State.setBin1_bout0 : (s.setBin1 a).bout0 = s.bout0 := rfl
@[simp] theorem State.setBin1_bout1 : (s.setBin1 a).bout1 = s.bout1 := rfl
@[simp] theorem State.setBin1_sout : (s.setBin1 a).sout = s.sout := rfl
@[simp] theorem State.setBin1_epos : (s.setBin1 a).epos = s.epos := rfl
@[simp] theorem State.setBin1_ft : (s.setBin1 a).ft = s.ft := rfl
@[simp] theorem State.setBin1_tree : (s.setBin1 a).tree = s.tree := rfl
@[simp] theorem State.setBin1_ct : (s.setBin1 a).ct = s.ct := rfl
@[simp] theorem State.setBin1_cmd : (s.setBin1 a).cmd = s.cmd := rfl
@[simp] theorem State.setBin1_busy : (s.setBin1 a).busy = s.busy := rfl
@[simp] theorem State.setBin1_status : (s.setBin1 a).status = s.status := rfl
@[simp] theorem State.setBin1_caps : (s.setBin1 a).caps = s.caps := rfl
@[simp] theorem State.setBin1_source : (s.setBin1 a).source = s.source := rfl
@[simp] theorem State.setBin1_drawn : (s.setBin1 a).drawn = s.drawn := rfl
@[simp] theorem State.setBin1_program : (s.setBin1 a).program = s.program := rfl
@[simp] theorem State.setBin1_reads : (s.setBin1 a).reads = s.reads := rfl
end

section
variable (s : State) (a : Symbols)
@[simp] theorem State.setSin_bin0 : (s.setSin a).bin0 = s.bin0 := rfl
@[simp] theorem State.setSin_bin1 : (s.setSin a).bin1 = s.bin1 := rfl
@[simp] theorem State.setSin_sin : (s.setSin a).sin = some a := rfl
@[simp] theorem State.setSin_bout0 : (s.setSin a).bout0 = s.bout0 := rfl
@[simp] theorem State.setSin_bout1 : (s.setSin a).bout1 = s.bout1 := rfl
@[simp] theorem State.setSin_sout : (s.setSin a).sout = s.sout := rfl
@[simp] theorem State.setSin_epos : (s.setSin a).epos = s.epos := rfl
@[simp] theorem State.setSin_ft : (s.setSin a).ft = s.ft := rfl
@[simp] theorem State.setSin_tree : (s.setSin a).tree = s.tree := rfl
@[simp] theorem State.setSin_ct : (s.setSin a).ct = s.ct := rfl
@[simp] theorem State.setSin_cmd : (s.setSin a).cmd = s.cmd := rfl
@[simp] theorem State.setSin_busy : (s.setSin a).busy = s.busy := rfl
@[simp] theorem State.setSin_status : (s.setSin a).status = s.status := rfl
@[simp] theorem State.setSin_caps : (s.setSin a).caps = s.caps := rfl
@[simp] theorem State.setSin_source : (s.setSin a).source = s.source := rfl
@[simp] theorem State.setSin_drawn : (s.setSin a).drawn = s.drawn := rfl
@[simp] theorem State.setSin_program : (s.setSin a).program = s.program := rfl
@[simp] theorem State.setSin_reads : (s.setSin a).reads = s.reads := rfl
end

section
variable (s : State) (a : Bits)
@[simp] theorem State.setBout0_bin0 : (s.setBout0 a).bin0 = s.bin0 := rfl
@[simp] theorem State.setBout0_bin1 : (s.setBout0 a).bin1 = s.bin1 := rfl
@[simp] theorem State.setBout0_sin : (s.setBout0 a).sin = s.sin := rfl
@[simp] theorem State.setBout0_bout0 : (s.setBout0 a).bout0 = some a := rfl
@[simp] theorem State.setBout0_bout1 : (s.setBout0 a).bout1 = s.bout1 := rfl
@[simp] theorem State.setBout0_sout : (s.setBout0 a).sout = s.sout := rfl
@[simp] theorem State.setBout0_epos : (s.setBout0 a).epos = s.epos := rfl
@[simp] theorem State.setBout0_ft : (s.setBout0 a).ft = s.ft := rfl
@[simp] theorem State.setBout0_tree : (s.setBout0 a).tree = s.tree := rfl
@[simp] theorem State.setBout0_ct : (s.setBout0 a).ct = s.ct := rfl
@[simp] theorem State.setBout0_cmd : (s.setBout0 a).cmd = s.cmd := rfl
@[simp] theorem State.setBout0_busy : (s.setBout0 a).busy = s.busy := rfl
@[simp] theorem State.setBout0_status : (s.setBout0 a).status = s.status := rfl
@[simp] theorem State.setBout0_caps : (s.setBout0 a).caps = s.caps := rfl
@[simp] theorem State.setBout0_source : (s.setBout0 a).source = s.source := rfl
@[simp] theorem State.setBout0_drawn : (s.setBout0 a).drawn = s.drawn := rfl
@[simp] theorem State.setBout0_program : (s.setBout0 a).program = s.program := rfl
@[simp] theorem State.setBout0_reads : (s.setBout0 a).reads = s.reads := rfl
end

section
variable (s : State) (a : Bits)
@[simp] theorem State.setBout1_bin0 : (s.setBout1 a).bin0 = s.bin0 := rfl
@[simp] theorem State.setBout1_bin1 : (s.setBout1 a).bin1 = s.bin1 := rfl
@[simp] theorem State.setBout1_sin : (s.setBout1 a).sin = s.sin := rfl
@[simp] theorem State.setBout1_bout0 : (s.setBout1 a).bout0 = s.bout0 := rfl
@[simp] theorem State.setBout1_bout1 : (s.setBout1 a).bout1 = some a := rfl
@[simp] theorem State.setBout1_sout : (s.setBout1 a).sout = s.sout := rfl
@[simp] theorem State.setBout1_epos : (s.setBout1 a).epos = s.epos := rfl
@[simp] theorem State.setBout1_ft : (s.setBout1 a).ft = s.ft := rfl
@[simp] theorem State.setBout1_tree : (s.setBout1 a).tree = s.tree := rfl
@[simp] theorem State.setBout1_ct : (s.setBout1 a).ct = s.ct := rfl
@[simp] theorem State.setBout1_cmd : (s.setBout1 a).cmd = s.cmd := rfl
@[simp] theorem State.setBout1_busy : (s.setBout1 a).busy = s.busy := rfl
@[simp] theorem State.setBout1_status : (s.setBout1 a).status = s.status := rfl
@[simp] theorem State.setBout1_caps : (s.setBout1 a).caps = s.caps := rfl
@[simp] theorem State.setBout1_source : (s.setBout1 a).source = s.source := rfl
@[simp] theorem State.setBout1_drawn : (s.setBout1 a).drawn = s.drawn := rfl
@[simp] theorem State.setBout1_program : (s.setBout1 a).program = s.program := rfl
@[simp] theorem State.setBout1_reads : (s.setBout1 a).reads = s.reads := rfl
end

section
variable (s : State) (a : Symbols)
@[simp] theorem State.setSout_bin0 : (s.setSout a).bin0 = s.bin0 := rfl
@[simp] theorem State.setSout_bin1 : (s.setSout a).bin1 = s.bin1 := rfl
@[simp] theorem State.setSout_sin : (s.setSout a).sin = s.sin := rfl
@[simp] theorem State.setSout_bout0 : (s.setSout a).bout0 = s.bout0 := rfl
@[simp] theorem State.setSout_bout1 : (s.setSout a).bout1 = s.bout1 := rfl
@[simp] theorem State.setSout_sout : (s.setSout a).sout = some a := rfl
@[simp] theorem State.setSout_epos : (s.setSout a).epos = s.epos := rfl
@[simp] theorem State.setSout_ft : (s.setSout a).ft = s.ft := rfl
@[simp] theorem State.setSout_tree : (s.setSout a).tree = s.tree := rfl
@[simp] theorem State.setSout_ct : (s.setSout a).ct = s.ct := rfl
@[simp] theorem State.setSout_cmd : (s.setSout a).cmd = s.cmd := rfl
@[simp] theorem State.setSout_busy : (s.setSout a).busy = s.busy := rfl
@[simp] theorem State.setSout_status : (s.setSout a).status = s.status := rfl
@[simp] theorem State.setSout_caps : (s.setSout a).caps = s.caps := rfl
@[simp] theorem State.setSout_source : (s.setSout a).source = s.source := rfl
@[simp] theorem State.setSout_drawn : (s.setSout a).drawn = s.drawn := rfl
@[simp] theorem State.setSout_program : (s.setSout a).program = s.program := rfl
@[simp] theorem State.setSout_reads : (s.setSout a).reads = s.reads := rfl
end

section
variable (s : State) (a : List ErrorPos)
@[simp] theorem State.setEpos_bin0 : (s.setEpos a).bin0 = s.bin0 := rfl
@[simp] theorem State.setEpos_bin1 : (s.setEpos a).bin1 = s.bin1 := rfl
@[simp] theorem State.setEpos_sin : (s.setEpos a).sin = s.sin := rfl
@[simp] theorem State.setEpos_bout0 : (s.setEpos a).bout0 = s.bout0 := rfl
@[simp] theorem State.setEpos_bout1 : (s.setEpos a).bout1 = s.bout1 := rfl
@[simp] theorem State.setEpos_sout : (s.setEpos a).sout = s.sout := rfl
@[simp] theorem State.setEpos_epos : (s.setEpos a).epos = some a := rfl
@[simp] theorem State.setEpos_ft : (s.setEpos a).ft = s.ft := rfl
@[simp] theorem State.setEpos_tree : (s.setEpos a).tree = s.tree := rfl
@[simp] theorem State.setEpos_ct : (s.setEpos a).ct = s.ct := rfl
@[simp] theorem State.setEpos_cmd : (s.setEpos a).cmd = s.cmd := rfl
@[simp] theorem State.setEpos_busy : (s.setEpos a).busy = s.busy := rfl
@[simp] theorem State.setEpos_status : (s.setEpos a).status = s.status := rfl
@[simp] theorem State.setEpos_caps : (s.setEpos a).caps = s.caps := rfl
@[simp] theorem State.setEpos_source : (s.setEpos a).source = s.source := rfl
@[simp] theorem State.setEpos_drawn : (s.setEpos a).drawn = s.drawn := rfl
@[simp] theorem State.setEpos_program : (s.setEpos a).program = s.program := rfl
@[simp] theorem State.setEpos_reads : (s.setEpos a).reads = s.reads := rfl
end

section
variable (s : State) (a : FreqTable)
@[simp] theorem State.setFt_bin0 : (s.setFt a).bin0 = s.bin0 := rfl
@[simp] theorem State.setFt_bin1 : (s.setFt a).bin1 = s.bin1 := rfl
@[simp] theorem State.setFt_sin : (s.setFt a).sin = s.sin := rfl
@[simp] theorem State.setFt_bout0 : (s.setFt a).bout0 = s.bout0 := rfl
@[simp] theorem State.setFt_bout1 : (s.setFt a).bout1 = s.bout1 := rfl
@[simp] theorem State.setFt_sout : (s.setFt a).sout = s.sout := rfl
@[simp] theorem State.setFt_epos : (s.setFt a).epos = s.epos := rfl
@[simp] theorem State.setFt_ft : (s.setFt a).ft = some a := rfl
@[simp] theorem State.setFt_tree : (s.setFt a).tree = s.tree := rfl
@[simp] theorem State.setFt_ct : (s.setFt a).ct = s.ct := rfl
@[simp] theorem State.setFt_cmd : (s.setFt a).cmd = s.cmd := rfl
@[simp] theorem State.setFt_busy : (s.setFt a).busy = s.busy := rfl
@[simp] theorem State.setFt_status : (s.setFt a).status = s.status := rfl
@[simp] theorem State.setFt_caps : (s.setFt a).caps = s.caps := rfl
@[simp] theorem State.setFt_source : (s.setFt a).source = s.source := rfl
@[simp] theorem State.setFt_drawn : (s.setFt a).drawn = s.drawn := rfl
@[simp] theorem State.setFt_program : (s.setFt a).program = s.program := rfl
@[simp] theorem State.setFt_reads : (s.setFt a).reads = s.reads := rfl
end

section
variable (s : State) (a : HuffmanNode)
@[simp] theorem State.setTree_bin0 : (s.setTree a).bin0 = s.bin0 := rfl
@[simp] theorem State.setTree_bin1 : (s.setTree a).bin1 = s.bin1 := rfl
@[simp] theorem State.setTree_sin : (s.setTree a).sin = s.sin := rfl
@[simp] theorem State.setTree_bout0 : (s.setTree a).bout0 = s.bout0 := rfl
@[simp] theorem State.setTree_bout1 : (s.setTree a).bout1 = s.bout1 := rfl
@[simp] theorem State.setTree_sout : (s.setTree a).sout = s.sout := rfl
@[simp] theorem State.setTree_epos : (s.setTree a).epos = s.epos := rfl
@[simp] theorem State.setTree_ft : (s.setTree a).ft = s.ft := rfl
@[simp] theorem State.setTree_tree : (s.setTree a).tree = some a := rfl
@[simp] theorem State.setTree_ct : (s.setTree a).ct = s.ct := rfl
@[simp] theorem State.setTree_cmd : (s.setTree a).cmd = s.cmd := rfl
@[simp] theorem State.setTree_busy : (s.setTree a).busy = s.busy := rfl
@[simp] theorem State.setTree_status : (s.setTree a).status = s.status := rfl
@[simp] theorem State.setTree_caps : (s.setTree a).caps = s.caps := rfl
@[simp] theorem State.setTree_source : (s.setTree a).source = s.source := rfl
@[simp] theorem State.setTree_drawn : (s.setTree a).drawn = s.drawn := rfl
@[simp] theorem State.setTree_program : (s.setTree a).program = s.program := rfl
@[simp] theorem State.setTree_reads : (s.setTree a).reads = s.reads := rfl
end

section
variable (s : State) (a : CodeTable)
@[simp] theorem State.setCt_bin0 : (s.setCt a).bin0 = s.bin0 := rfl
@[simp] theorem State.setCt_bin1 : (s.setCt a).bin1 = s.bin1 := rfl
@[simp] theorem State.setCt_sin : (s.setCt a).sin = s.sin := rfl
@[simp] theorem State.setCt_bout0 : (s.setCt a).bout0 = s.bout0 := rfl
@[simp] theorem State.setCt_bout1 : (s.setCt a).bout1 = s.bout1 := rfl
@[simp] theorem State.setCt_sout : (s.setCt a).sout = s.sout := rfl
@[simp] theorem State.setCt_epos : (s.setCt a).epos = s.epos := rfl
@[simp] theorem State.setCt_ft : (s.setCt a).ft = s.ft := rfl
@[simp] theorem State.setCt_tree : (s.setCt a).tree = s.tree := rfl
@[simp] theorem State.setCt_ct : (s.setCt a).ct = some a := rfl
@[simp] theorem State.setCt_cmd : (s.setCt a).cmd = s.cmd := rfl
@[simp] theorem State.setCt_busy : (s.setCt a).busy = s.busy := rfl
@[simp] theorem State.setCt_status : (s.setCt a).status = s.status := rfl
@[simp] theorem State.setCt_caps : (s.setCt a).caps = s.caps := rfl
@[simp] theorem State.setCt_source : (s.setCt a).source = s.source := rfl
@[simp] theorem State.setCt_drawn : (s.setCt a).drawn = s.drawn := rfl
@[simp] theorem State.setCt_program : (s.setCt a).program = s.program := rfl
@[simp] theorem State.setCt_reads : (s.setCt a).reads = s.reads := rfl
end

section
variable (s : State) 
@[simp] theorem State.complete_bin0 : (s.complete).bin0 = s.bin0 := rfl
@[simp] theorem State.complete_bin1 : (s.complete).bin1 = s.bin1 := rfl
@[simp] theorem State.complete_sin : (s.complete).sin = s.sin := rfl
@[simp] theorem State.complete_bout0 : (s.complete).bout0 = s.bout0 := rfl
@[simp] theorem State.complete_bout1 : (s.complete).bout1 = s.bout1 := rfl
@[simp] theorem State.complete_sout : (s.complete).sout = s.sout := rfl
@[simp] theorem State.complete_epos : (s.complete).epos = s.epos := rfl
@[simp] theorem State.complete_ft : (s.complete).ft = s.ft := rfl
@[simp] theorem State.complete_tree : (s.complete).tree = s.tree := rfl
@[simp] theorem State.complete_ct : (s.complete).ct = s.ct := rfl
@[simp] theorem State.complete_cmd : (s.complete).cmd = s.cmd := rfl
@[simp] theorem State.complete_busy : (s.complete).busy = false := rfl
@[simp] theorem State.complete_status : (s.complete).status = statusOk := rfl
@[simp] theorem State.complete_caps : (s.complete).caps = s.caps := rfl
@[simp] theorem State.complete_source : (s.complete).source = s.source := rfl
@[simp] theorem State.complete_drawn : (s.complete).drawn = s.drawn := rfl
@[simp] theorem State.complete_program : (s.complete).program = s.program := rfl
@[simp] theorem State.complete_reads : (s.complete).reads = s.reads := rfl
end

section
variable (s : State) (n : Nat)
@[simp] theorem State.advanceSource_bin0 : (s.advanceSource n).bin0 = s.bin0 := rfl
@[simp] theorem State.advanceSource_bin1 : (s.advanceSource n).bin1 = s.bin1 := rfl
@[simp] theorem State.advanceSource_sin : (s.advanceSource n).sin = s.sin := rfl
@[simp] theorem State.advanceSource_bout0 : (s.advanceSource n).bout0 = s.bout0 := rfl
@[simp] theorem State.advanceSource_bout1 : (s.advanceSource n).bout1 = s.bout1 := rfl
@[simp] theorem State.advanceSource_sout : (s.advanceSource n).sout = s.sout := rfl
@[simp] theorem State.advanceSource_epos : (s.advanceSource n).epos = s.epos := rfl
@[simp] theorem State.advanceSource_ft : (s.advanceSource n).ft = s.ft := rfl
@[simp] theorem State.advanceSource_tree : (s.advanceSource n).tree = s.tree := rfl
@[simp] theorem State.advanceSource_ct : (s.advanceSource n).ct = s.ct := rfl
@[simp] theorem State.advanceSource_cmd : (s.advanceSource n).cmd = s.cmd := rfl
@[simp] theorem State.advanceSource_busy : (s.advanceSource n).busy = s.busy := rfl
@[simp] theorem State.advanceSource_status : (s.advanceSource n).status = s.status := rfl
@[simp] theorem State.advanceSource_caps : (s.advanceSource n).caps = s.caps := rfl
@[simp] theorem State.advanceSource_source : (s.advanceSource n).source = s.source.drop n := rfl
@[simp] theorem State.advanceSource_drawn : (s.advanceSource n).drawn = s.drawn + n := rfl
@[simp] theorem State.advanceSource_program : (s.advanceSource n).program = s.program := rfl
@[simp] theorem State.advanceSource_reads : (s.advanceSource n).reads = s.reads := rfl
end

section
variable (s : State) (r : Readable) (v : ReadValue)
@[simp] theorem State.noteRead_bin0 : (s.noteRead r v).bin0 = s.bin0 := rfl
@[simp] theorem State.noteRead_bin1 : (s.noteRead r v).bin1 = s.bin1 := rfl
@[simp] theorem State.noteRead_sin : (s.noteRead r v).sin = s.sin := rfl
@[simp] theorem State.noteRead_bout0 : (s.noteRead r v).bout0 = s.bout0 := rfl
@[simp] theorem State.noteRead_bout1 : (s.noteRead r v).bout1 = s.bout1 := rfl
@[simp] theorem State.noteRead_sout : (s.noteRead r v).sout = s.sout := rfl
@[simp] theorem State.noteRead_epos : (s.noteRead r v).epos = s.epos := rfl
@[simp] theorem State.noteRead_ft : (s.noteRead r v).ft = s.ft := rfl
@[simp] theorem State.noteRead_tree : (s.noteRead r v).tree = s.tree := rfl
@[simp] theorem State.noteRead_ct : (s.noteRead r v).ct = s.ct := rfl
@[simp] theorem State.noteRead_cmd : (s.noteRead r v).cmd = s.cmd := rfl
@[simp] theorem State.noteRead_busy : (s.noteRead r v).busy = s.busy := rfl
@[simp] theorem State.noteRead_status : (s.noteRead r v).status = s.status := rfl
@[simp] theorem State.noteRead_caps : (s.noteRead r v).caps = s.caps := rfl
@[simp] theorem State.noteRead_source : (s.noteRead r v).source = s.source := rfl
@[simp] theorem State.noteRead_drawn : (s.noteRead r v).drawn = s.drawn := rfl
@[simp] theorem State.noteRead_program : (s.noteRead r v).program = s.program := rfl
@[simp] theorem State.noteRead_reads : (s.noteRead r v).reads = s.reads ++ [(r, v)] := rfl
end

section
variable (s : State) (l : List HostAction)
@[simp] theorem State.thenDo_bin0 : (s.thenDo l).bin0 = s.bin0 := rfl
@[simp] theorem State.thenDo_bin1 : (s.thenDo l).bin1 = s.bin1 := rfl
@[simp] theorem State.thenDo_sin : (s.thenDo l).sin = s.sin := rfl
@[simp] theorem State.thenDo_bout0 : (s.thenDo l).bout0 = s.bout0 := rfl
@[simp] theorem State.thenDo_bout1 : (s.thenDo l).bout1 = s.bout1 := rfl
@[simp] theorem State.thenDo_sout : (s.thenDo l).sout = s.sout := rfl
@[simp] theorem State.thenDo_epos : (s.thenDo l).epos = s.epos := rfl
@[simp] theorem State.thenDo_ft : (s.thenDo l).ft = s.ft := rfl
@[simp] theorem State.thenDo_tree : (s.thenDo l).tree = s.tree := rfl
@[simp] theorem State.thenDo_ct : (s.thenDo l).ct = s.ct := rfl
@[simp] theorem State.thenDo_cmd : (s.thenDo l).cmd = s.cmd := rfl
@[simp] theorem State.thenDo_busy : (s.thenDo l).busy = s.busy := rfl
@[simp] theorem State.thenDo_status : (s.thenDo l).status = s.status := rfl
@[simp] theorem State.thenDo_caps : (s.thenDo l).caps = s.caps := rfl
@[simp] theorem State.thenDo_source : (s.thenDo l).source = s.source := rfl
@[simp] theorem State.thenDo_drawn : (s.thenDo l).drawn = s.drawn := rfl
@[simp] theorem State.thenDo_program : (s.thenDo l).program = l ++ s.program := rfl
@[simp] theorem State.thenDo_reads : (s.thenDo l).reads = s.reads := rfl
end

section
variable (s : State) (e : Element)
@[simp] theorem State.invalidate_cmd : (s.invalidate e).cmd = s.cmd := by cases e <;> rfl
@[simp] theorem State.invalidate_busy : (s.invalidate e).busy = s.busy := by cases e <;> rfl
@[simp] theorem State.invalidate_status : (s.invalidate e).status = s.status := by cases e <;> rfl
@[simp] theorem State.invalidate_caps : (s.invalidate e).caps = s.caps := by cases e <;> rfl
@[simp] theorem State.invalidate_source : (s.invalidate e).source = s.source := by cases e <;> rfl
@[simp] theorem State.invalidate_drawn : (s.invalidate e).drawn = s.drawn := by cases e <;> rfl
@[simp] theorem State.invalidate_program : (s.invalidate e).program = s.program := by cases e <;> rfl
@[simp] theorem State.invalidate_reads : (s.invalidate e).reads = s.reads := by cases e <;> rfl
end

/-- Invalidating an element leaves every other one as it was. -/
theorem State.invalidate_sameAt (s : State) {d e : Element} (h : e ≠ d) : (s.invalidate d).sameAt s e := by
  cases d <;> cases e <;> first | exact absurd rfl h | rfl

/-- An invalidated element holds no value. -/
@[simp] theorem State.invalidate_holds (s : State) (e : Element) : (s.invalidate e).holds e = false := by
  cases e <;> rfl

theorem State.sameAt_refl (s : State) (e : Element) : s.sameAt s e := by cases e <;> rfl

theorem State.sameAt_trans {s t u : State} {e : Element} (h : s.sameAt t e) (h' : t.sameAt u e) : s.sameAt u e := by
  cases e <;> exact Eq.trans h h'

theorem State.sameAt_symm {s t : State} {e : Element} (h : s.sameAt t e) : t.sameAt s e := by
  cases e <;> exact Eq.symm h

/-- Agreeing at an element is agreeing on its mark. -/
theorem State.holds_eq_of_sameAt {s t : State} {e : Element} (h : s.sameAt t e) : s.holds e = t.holds e := by
  cases e <;> exact congrArg Option.isSome h

end Sys2Proof.Machine
end

