-- ==== Sys2Proof/Laws/Ops.lean ====
section
/-! SUPPORT. What each shared operation can do, said once: taking an error, the end of an operation, reading a source. -/

namespace Sys2Proof.Machine

/-! ### Invalidating a list of destinations and taking an error -/

/-- A field that `invalidate` keeps is kept by invalidating a whole list. -/
theorem foldl_invalidate_keeps {β : Type} (f : State → β) (hf : ∀ s e, f (s.invalidate e) = f s) (l : List Element) (s : State) :
    f (l.foldl (fun s d => s.invalidate d) s) = f s := by
  induction l generalizing s with
  | nil => rfl
  | cons d rest ih => rw [List.foldl_cons, ih, hf]

theorem foldl_invalidate_sameAt (l : List Element) (s : State) {e : Element} (h : e ∉ l) :
    (l.foldl (fun s d => s.invalidate d) s).sameAt s e := by
  induction l generalizing s with
  | nil => exact s.sameAt_refl e
  | cons d rest ih =>
    have hd : e ≠ d := fun he => h (he ▸ List.mem_cons_self)
    exact State.sameAt_trans (ih _ fun hm => h (List.mem_cons_of_mem _ hm)) (s.invalidate_sameAt hd)

theorem foldl_invalidate_holds (l : List Element) (s : State) {e : Element} (h : e ∈ l) :
    (l.foldl (fun s d => s.invalidate d) s).holds e = false := by
  induction l generalizing s with
  | nil => cases h
  | cons d rest ih =>
    rw [List.foldl_cons]
    by_cases hm : e ∈ rest
    · exact ih _ hm
    · obtain rfl : e = d := by simpa [hm] using h
      rw [State.holds_eq_of_sameAt (foldl_invalidate_sameAt rest _ hm), State.invalidate_holds]

section
variable (s : State) (l : List Element) (e : OpError)

@[simp] theorem State.takeError_status : (s.takeError l e).status = e.code := rfl

@[simp] theorem State.takeError_busy : (s.takeError l e).busy = false := rfl

@[simp] theorem State.takeError_cmd : (s.takeError l e).cmd = s.cmd :=
  foldl_invalidate_keeps State.cmd State.invalidate_cmd l s

@[simp] theorem State.takeError_caps : (s.takeError l e).caps = s.caps :=
  foldl_invalidate_keeps State.caps State.invalidate_caps l s

@[simp] theorem State.takeError_source : (s.takeError l e).source = s.source :=
  foldl_invalidate_keeps State.source State.invalidate_source l s

@[simp] theorem State.takeError_drawn : (s.takeError l e).drawn = s.drawn :=
  foldl_invalidate_keeps State.drawn State.invalidate_drawn l s

@[simp] theorem State.takeError_program : (s.takeError l e).program = s.program :=
  foldl_invalidate_keeps State.program State.invalidate_program l s

@[simp] theorem State.takeError_reads : (s.takeError l e).reads = s.reads :=
  foldl_invalidate_keeps State.reads State.invalidate_reads l s

/-- An error leaves every element but its destinations as it was (R33, R34). -/
theorem State.takeError_sameAt {d : Element} (h : d ∉ l) : (s.takeError l e).sameAt s d := by
  have hs := foldl_invalidate_sameAt l s h
  cases d <;> exact hs

/-- After an error every destination holds no value (R33). -/
theorem State.takeError_holds {d : Element} (h : d ∈ l) : (s.takeError l e).holds d = false := by
  have hs := foldl_invalidate_holds l s h
  cases d <;> exact hs

end

/-! ### The end of an operation -/

section
variable {α : Type} {dests : List Element} {outcome : Except OpError α} {exceeds : α → Option Element}
  {put : α → State → State} {s t : State}

/-- If an operation ends in a next state, it ended by an error (R33) or with results that fit (R32). -/
theorem conclude_next (h : conclude dests outcome exceeds put s = .next t) :
    (∃ e, outcome = .error e ∧ t = s.takeError dests e) ∨
      (∃ a, outcome = .ok a ∧ exceeds a = none ∧ t = (put a s).complete) := by
  unfold conclude at h
  split at h
  · exact .inl ⟨_, rfl, by simpa using h.symm⟩
  · split at h
    · cases h
    · exact .inr ⟨_, rfl, ‹_›, by simpa using h.symm⟩

/-- If an operation is refused at its end, its results exceed a capacity (R53). -/
theorem conclude_refused {r : Refusal} (h : conclude dests outcome exceeds put s = .refused r) :
    ∃ a d, outcome = .ok a ∧ exceeds a = some d ∧ r = .overCapacity d := by
  unfold conclude at h
  split at h
  · cases h
  · split at h
    · exact ⟨_, _, rfl, ‹_›, by simpa using h.symm⟩
    · cases h

@[simp] theorem conclude_error (e : OpError) :
    conclude dests (.error e) exceeds put s = .next (s.takeError dests e) := rfl

theorem conclude_ok {a : α} (h : exceeds a = none) :
    conclude dests (.ok a) exceeds put s = .next (put a s).complete := by
  simp [conclude, h]

theorem conclude_exceeds {a : α} {d : Element} (h : exceeds a = some d) :
    conclude dests (.ok a) exceeds put s = .refused (.overCapacity d) := by
  simp [conclude, h]

@[simp] theorem conclude_neverOver (a : α) :
    conclude dests (.ok a) neverOver put s = .next (put a s).complete := rfl

end

@[simp] theorem neverOver_eq_none {α : Type} (a : α) : neverOver a = none := rfl

@[simp] theorem overUnless_eq_none {α : Type} {e : Element} {fits : α → Bool} {a : α} :
    overUnless e fits a = none ↔ fits a = true := by
  unfold overUnless
  split <;> simp_all

theorem overUnless_eq_some {α : Type} {e d : Element} {fits : α → Bool} {a : α} :
    overUnless e fits a = some d ↔ fits a = false ∧ d = e := by
  unfold overUnless
  split <;> simp_all
  exact eq_comm

/-! ### Reading a source -/

section
variable {α : Type} {e : Element} {content : Option α} {fits : α → Bool} {k : α → Result} {t : State}

/-- If an operation gets past a source, that source holds a value within its capacity (R31, U1, U4). -/
theorem readSource_next (h : readSource e content fits k = .next t) :
    ∃ a, content = some a ∧ fits a = true ∧ k a = .next t := by
  unfold readSource at h
  split at h
  · cases h
  · split at h
    · exact ⟨_, rfl, ‹_›, h⟩
    · cases h

/-- If an operation is refused from a source on: no value, over capacity, or refused later. -/
theorem readSource_refused {r : Refusal} (h : readSource e content fits k = .refused r) :
    (content = none ∧ r = .sourceHoldsNoValue e) ∨
      (∃ a, content = some a ∧ fits a = false ∧ r = .overCapacity e) ∨
      (∃ a, content = some a ∧ fits a = true ∧ k a = .refused r) := by
  unfold readSource at h
  split at h
  · exact .inl ⟨rfl, by simpa using h.symm⟩
  · split at h
    · exact .inr (.inr ⟨_, rfl, ‹_›, h⟩)
    · exact .inr (.inl ⟨_, rfl, by simp_all, by simpa using h.symm⟩)

theorem readSource_some {a : α} (hc : content = some a) (hf : fits a = true) : readSource e content fits k = k a := by
  simp [readSource, hc, hf]

theorem readSource_none (hc : content = none) : readSource e content fits k = .refused (.sourceHoldsNoValue e) := by
  simp [readSource, hc]

theorem readSource_over {a : α} (hc : content = some a) (hf : fits a = false) :
    readSource e content fits k = .refused (.overCapacity e) := by
  simp [readSource, hc, hf]

end

section
variable {s : State} {k : Bits → Result} {ks : Symbols → Result}

theorem State.withBin0_some {b : Bits} (h : s.bin0 = some b) (hf : fitsBits s.caps b.length = true) : s.withBin0 k = k b :=
  readSource_some h hf

theorem State.withBin1_some {b : Bits} (h : s.bin1 = some b) (hf : fitsBits s.caps b.length = true) : s.withBin1 k = k b :=
  readSource_some h hf

theorem State.withSin_some {l : Symbols} (h : s.sin = some l) (hf : fitsSyms s.caps l.length = true) : s.withSin ks = ks l :=
  readSource_some h hf

theorem State.withFt_some {t : FreqTable} {kf : FreqTable → Result} (h : s.ft = some t) (hf : fitsCounts s.caps t = true) :
    s.withFt kf = kf t :=
  readSource_some h hf

theorem State.withTree_some {t : HuffmanNode} {kt : HuffmanNode → Result} (h : s.tree = some t) : s.withTree kt = kt t :=
  readSource_some h rfl

theorem State.withCt_some {t : CodeTable} {kc : CodeTable → Result} (h : s.ct = some t) : s.withCt kc = kc t :=
  readSource_some h rfl

end

/-! ### Capacities -/

/-- Fewer bits fit where more do. -/
theorem fitsBits_mono {c : Capacities} {m n : Nat} (hmn : m ≤ n) (h : fitsBits c n = true) : fitsBits c m = true := by
  unfold fitsBits at *
  split <;> simp_all
  omega

/-- A smaller count fits where a larger one does. -/
theorem fitsCount_mono {c : Capacities} {m n : Nat} (hmn : m ≤ n) (h : fitsCount c n = true) : fitsCount c m = true := by
  unfold fitsCount at *
  split <;> simp_all
  omega

@[simp] theorem fitsBits_unbounded (n : Nat) : fitsBits Capacities.unbounded n = true := rfl

@[simp] theorem fitsSyms_unbounded (n : Nat) : fitsSyms Capacities.unbounded n = true := rfl

@[simp] theorem fitsCount_unbounded (n : Nat) : fitsCount Capacities.unbounded n = true := rfl

@[simp] theorem fitsCounts_unbounded (t : FreqTable) : fitsCounts Capacities.unbounded t = true := by
  simp [fitsCounts]

/-! ### The random-bit source -/

/-- An operation draws as many bits as it asks for (R121). -/
@[simp] theorem State.draws_length (s : State) (n : Nat) : (s.draws n).length = n := by simp [State.draws]

/-- The injected bits are answered in order (R27). -/
theorem State.draws_of_source {s : State} {k rest : Bits} (h : s.source = k ++ rest) : s.draws k.length = k := by
  refine List.ext_getElem (by simp) fun i hi hi' => ?_
  simp [State.draws, State.drawnBit, h, List.getElem?_append_left hi', hi']

/-- The bits drawn begin with those the source still gives (R27). -/
theorem State.draws_take_source (s : State) (n : Nat) : (s.draws n).take s.source.length = s.source.take n := by
  refine List.ext_getElem (by simp [Nat.min_comm]) fun i hi _ => ?_
  have hi' : i < s.source.length := by simp at hi; omega
  simp [State.draws, State.drawnBit, hi']

end Sys2Proof.Machine
end

