-- ==== Sys2Proof/Laws/Meanings.lean ====
section
/-! SUPPORT. One inversion lemma for each meaning: if it answers a next state, its sources held values within their capacity and
it ended by its error or with its results. Claims over all operations cite these instead of unfolding a meaning. -/

namespace Sys2Proof.Machine

variable {s t : State}

theorem execHamDecblk_next (h : execHamDecblk s = .next t) :
    ∃ b, s.bin0 = some b ∧ fitsBits s.caps b.length = true ∧
      ((b.length ≠ 7 ∧ t = s.takeError [.bout0, .epos] .incompleteBlock) ∨
        (b.length = 7 ∧ t = (putBlocks (decodeWindows b) s).complete)) := by
  obtain ⟨b, hb, hf, h⟩ := readSource_next h
  refine ⟨b, hb, hf, ?_⟩
  unfold decodeOneBlock at h
  split at h <;> rename_i hl
  · exact .inl ⟨hl, by simpa using h.symm⟩
  · exact .inr ⟨by omega, by simpa using h.symm⟩

theorem execHamDec_next (h : execHamDec s = .next t) :
    ∃ b, s.bin0 = some b ∧ fitsBits s.caps b.length = true ∧
      ((b.length % 7 ≠ 0 ∧ t = s.takeError [.bout0, .epos] .incompleteBlock) ∨
        (b.length % 7 = 0 ∧ t = (putBlocks (decodeWindows b) s).complete)) := by
  obtain ⟨b, hb, hf, h⟩ := readSource_next h
  refine ⟨b, hb, hf, ?_⟩
  unfold decodeBlocks at h
  split at h <;> rename_i hl
  · exact .inl ⟨hl, by simpa using h.symm⟩
  · exact .inr ⟨by omega, by simpa using h.symm⟩

theorem execBpPack_next (h : execBpPack s = .next t) :
    ∃ b, s.bin0 = some b ∧ fitsBits s.caps b.length = true ∧ fitsSyms s.caps (pack b).length = true ∧
      t = (s.setSout (pack b)).complete := by
  obtain ⟨b, hb, hf, h⟩ := readSource_next h
  obtain ⟨e, he, _⟩ | ⟨l, hl, hx, rfl⟩ := conclude_next h
  · cases he
  · cases hl
    exact ⟨b, hb, hf, overUnless_eq_none.1 hx, rfl⟩

theorem execBpUnpack_next (h : execBpUnpack s = .next t) :
    ∃ l, s.sin = some l ∧ fitsSyms s.caps l.length = true ∧ fitsBits s.caps (unpack l).length = true ∧
      t = (s.setBout0 (unpack l)).complete := by
  obtain ⟨l, hl, hf, h⟩ := readSource_next h
  obtain ⟨e, he, _⟩ | ⟨b, hb, hx, rfl⟩ := conclude_next h
  · nomatch he
  · obtain rfl := Except.ok.inj hb
    exact ⟨l, hl, hf, overUnless_eq_none.1 hx, rfl⟩

theorem execScEnc_next (h : execScEnc s = .next t) :
    ∃ b, s.bin0 = some b ∧ fitsBits s.caps b.length = true ∧
      t = (putCipher (xorSeq b (s.draws b.length), s.draws b.length) (s.advanceSource b.length)).complete := by
  obtain ⟨b, hb, hf, h⟩ := readSource_next h
  exact ⟨b, hb, hf, by simpa using h.symm⟩

theorem execScDec_next (h : execScDec s = .next t) :
    ∃ b k, s.bin0 = some b ∧ s.bin1 = some k ∧ fitsBits s.caps b.length = true ∧ fitsBits s.caps k.length = true ∧
      ((b.length ≠ k.length ∧ t = s.takeError [.bout0] .lengthMismatch) ∨
        (b.length = k.length ∧ t = (s.setBout0 (xorSeq b k)).complete)) := by
  obtain ⟨b, hb, hf, h⟩ := readSource_next h
  obtain ⟨k, hk, hg, h⟩ := readSource_next h
  refine ⟨b, k, hb, hk, hf, hg, ?_⟩
  unfold decrypt at h
  split at h <;> rename_i hl
  · exact .inl ⟨hl, by simpa using h.symm⟩
  · exact .inr ⟨by omega, by simpa using h.symm⟩

theorem execHufFreq_next (h : execHufFreq s = .next t) :
    ∃ l, s.sin = some l ∧ fitsSyms s.caps l.length = true ∧ fitsCount s.caps l.length = true ∧
      t = (s.setFt (countSymbols l)).complete := by
  obtain ⟨l, hl, hf, h⟩ := readSource_next h
  obtain ⟨e, he, _⟩ | ⟨b, hb, hx, rfl⟩ := conclude_next h
  · exact absurd he (by simp)
  · obtain rfl := Except.ok.inj hb
    exact ⟨l, hl, hf, overUnless_eq_none.1 hx, rfl⟩

/-- The one error of `build_tree` is EmptyAlphabet (R136, R138). -/
theorem buildTree_error {c : FreqTable} {e : OpError} (h : buildTree c = .error e) :
    e = .emptyAlphabet ∧ leafCandidates c = [] := by
  unfold buildTree at h
  cases hc : leafCandidates c with
  | nil => exact ⟨by simpa [hc] using h.symm, rfl⟩
  | cons x rest => simp [hc] at h

theorem execHufTree_next (h : execHufTree s = .next t) :
    ∃ c, s.ft = some c ∧ fitsCounts s.caps c = true ∧
      ((leafCandidates c = [] ∧ t = s.takeError [.tree] .emptyAlphabet) ∨
        (∃ n, buildTree c = .ok n ∧ fitsCount s.caps n.frequency = true ∧ t = (s.setTree n).complete)) := by
  obtain ⟨c, hc, hf, h⟩ := readSource_next h
  refine ⟨c, hc, hf, ?_⟩
  obtain ⟨e, he, rfl⟩ | ⟨n, hn, hx, rfl⟩ := conclude_next h
  · obtain ⟨rfl, hnil⟩ := buildTree_error he
    exact .inl ⟨hnil, rfl⟩
  · exact .inr ⟨n, hn, overUnless_eq_none.1 hx, rfl⟩

theorem execHufCodes_next (h : execHufCodes s = .next t) :
    ∃ n, s.tree = some n ∧ t = (s.setCt (assignCodes n)).complete := by
  obtain ⟨n, hn, _, h⟩ := readSource_next h
  exact ⟨n, hn, by simpa using h.symm⟩

/-- The one error of `encode` is UnknownSymbol (R143). -/
theorem encodeSymbols_error {c : CodeTable} {l : Symbols} {e : OpError} (h : encodeSymbols c l = .error e) :
    e = .unknownSymbol := by
  induction l with
  | nil => cases h
  | cons v rest ih =>
    unfold encodeSymbols at h
    split at h
    · simpa using h.symm
    · split at h
      · exact ih (by simp_all)
      · cases h

theorem execHufEnc_next (h : execHufEnc s = .next t) :
    ∃ l c, s.sin = some l ∧ s.ct = some c ∧ fitsSyms s.caps l.length = true ∧
      ((encodeSymbols c l = .error .unknownSymbol ∧ t = s.takeError [.bout0] .unknownSymbol) ∨
        (∃ b, encodeSymbols c l = .ok b ∧ fitsBits s.caps b.length = true ∧ t = (s.setBout0 b).complete)) := by
  obtain ⟨l, hl, hf, h⟩ := readSource_next h
  obtain ⟨c, hc, _, h⟩ := readSource_next h
  refine ⟨l, c, hl, hc, hf, ?_⟩
  obtain ⟨e, he, rfl⟩ | ⟨b, hb, hx, rfl⟩ := conclude_next h
  · obtain rfl := encodeSymbols_error he
    exact .inl ⟨he, rfl⟩
  · exact .inr ⟨b, hb, overUnless_eq_none.1 hx, rfl⟩

/-- `emit` passes errors on. -/
@[simp] theorem emit_eq_error {v : Symbol} {r : Except OpError Symbols} {e : OpError} : emit v r = .error e ↔ r = .error e := by
  cases r <;> simp [emit]

/-- `emit` puts its symbol in front. -/
@[simp] theorem emit_eq_ok {v : Symbol} {r : Except OpError Symbols} {l : Symbols} :
    emit v r = .ok l ↔ ∃ out, r = .ok out ∧ l = v :: out := by
  cases r <;> simp [emit, eq_comm]

theorem walkBits_error {root n : HuffmanNode} {a : Bit} {b : Bits} {e : OpError} (h : walkBits root n a b = .error e) :
    e = .truncatedStream := by
  induction b generalizing n a with
  | nil => cases a <;> simp_all [walkBits]
  | cons x rest ih =>
    unfold walkBits at h
    split at h
    · exact ih (emit_eq_error.1 h)
    · exact ih h

theorem decodeSingle_error {v : Symbol} {b : Bits} {e : OpError} (h : decodeSingle v b = .error e) : e = .invalidCode := by
  induction b with
  | nil => cases h
  | cons x rest ih =>
    cases x with
    | true => simpa [decodeSingle] using h.symm
    | false => exact ih (emit_eq_error.1 h)

/-- The errors of `decode` (R160, R161): TruncatedStream or InvalidCode. -/
theorem decodeBits_error {n : HuffmanNode} {b : Bits} {e : OpError} (h : decodeBits n b = .error e) :
    e = .truncatedStream ∨ e = .invalidCode := by
  cases n with
  | leaf v f => exact .inr (decodeSingle_error h)
  | internal f l r => exact .inl (walkBits_error h)

theorem execHufDec_next (h : execHufDec s = .next t) :
    ∃ b n, s.bin0 = some b ∧ s.tree = some n ∧ fitsBits s.caps b.length = true ∧
      ((∃ e, decodeBits n b = .error e ∧ t = s.takeError [.sout] e) ∨
        (∃ l, decodeBits n b = .ok l ∧ fitsSyms s.caps l.length = true ∧ t = (s.setSout l).complete)) := by
  obtain ⟨b, hb, hf, h⟩ := readSource_next h
  obtain ⟨n, hn, _, h⟩ := readSource_next h
  refine ⟨b, n, hb, hn, hf, ?_⟩
  obtain ⟨e, he, rfl⟩ | ⟨l, hl, hx, rfl⟩ := conclude_next h
  · exact .inl ⟨e, he, rfl⟩
  · exact .inr ⟨l, hl, overUnless_eq_none.1 hx, rfl⟩

end Sys2Proof.Machine
end

