-- ==== Sys2Proof/Laws/BitPacker.lean ====
section
/-! SUPPORT. Lemmas about the bit packer: the loop over groups of eight, lengths, one symbol and its bits. -/

namespace Sys2Proof.Machine

@[simp] theorem pack_nil : pack [] = [] := rfl

@[simp] theorem pack_cons (b0 b1 b2 b3 b4 b5 b6 b7 : Bit) (rest : Bits) :
    pack (b0 :: b1 :: b2 :: b3 :: b4 :: b5 :: b6 :: b7 :: rest) = symbolOfBits b0 b1 b2 b3 b4 b5 b6 b7 :: pack rest := rfl

/-- A list of at least eight bits is a group and the rest. -/
theorem exists_group {b : Bits} (h : 8 ≤ b.length) :
    ∃ b0 b1 b2 b3 b4 b5 b6 b7 rest, b = b0 :: b1 :: b2 :: b3 :: b4 :: b5 :: b6 :: b7 :: rest := by
  match b, h with
  | b0 :: b1 :: b2 :: b3 :: b4 :: b5 :: b6 :: b7 :: rest, _ => exact ⟨b0, b1, b2, b3, b4, b5, b6, b7, rest, rfl⟩

/-- Fewer than eight bits give no symbol (R45). -/
theorem pack_short {b : Bits} (h : b.length < 8) : pack b = [] := by
  match b, h with
  | [], _ | [_], _ | [_, _], _ | [_, _, _], _ | [_, _, _, _], _ | [_, _, _, _, _], _ | [_, _, _, _, _, _], _
  | [_, _, _, _, _, _, _], _ => rfl
  | _ :: _ :: _ :: _ :: _ :: _ :: _ :: _ :: _, h => exact absurd h (by simp)

/-- A property of the groups follows from one that holds of no group and goes from the rest to a group and the rest. -/
theorem groups_induction {motive : Bits → Prop} (short : ∀ b, b.length < 8 → motive b)
    (group : ∀ b0 b1 b2 b3 b4 b5 b6 b7 rest,
      motive rest → motive (b0 :: b1 :: b2 :: b3 :: b4 :: b5 :: b6 :: b7 :: rest)) (b : Bits) : motive b := by
  induction hn : b.length using Nat.strong_induction_on generalizing b with
  | _ n ih =>
    subst hn
    by_cases h : b.length < 8
    · exact short b h
    · obtain ⟨b0, b1, b2, b3, b4, b5, b6, b7, rest, rfl⟩ := exists_group (b := b) (by omega)
      exact group _ _ _ _ _ _ _ _ _ (ih rest.length (by simp; omega) rest rfl)

/-- One symbol for each whole group (R110). -/
@[simp] theorem pack_length (b : Bits) : (pack b).length = b.length / 8 := by
  induction b using groups_induction with
  | short b h => simp [pack_short h, Nat.div_eq_of_lt h]
  | group b0 b1 b2 b3 b4 b5 b6 b7 rest ih => simp [ih]; omega

@[simp] theorem unpack_nil : unpack [] = [] := rfl

@[simp] theorem unpack_cons (v : Symbol) (l : Symbols) : unpack (v :: l) = bitsOfSymbol v ++ unpack l := rfl

@[simp] theorem bitsOfSymbol_length (v : Symbol) : (bitsOfSymbol v).length = 8 := rfl

/-- Eight bits for each symbol (R112). -/
@[simp] theorem unpack_length (l : Symbols) : (unpack l).length = 8 * l.length := by
  induction l with
  | nil => rfl
  | cons v rest ih => simp [ih]; omega

/-- The bits of a packed symbol are the bits packed (R67). -/
@[simp] theorem bitsOfSymbol_symbolOfBits (b0 b1 b2 b3 b4 b5 b6 b7 : Bit) :
    bitsOfSymbol (symbolOfBits b0 b1 b2 b3 b4 b5 b6 b7) = [b0, b1, b2, b3, b4, b5, b6, b7] := by
  revert b0 b1 b2 b3 b4 b5 b6 b7
  decide +kernel

/-- The symbol packed from a symbol's bits is that symbol (R67). -/
theorem symbolOfBits_bits (v : Symbol) :
    symbolOfBits (v.getLsbD 7) (v.getLsbD 6) (v.getLsbD 5) (v.getLsbD 4) (v.getLsbD 3) (v.getLsbD 2) (v.getLsbD 1)
      (v.getLsbD 0) = v := by
  revert v
  decide +kernel

/-- The value of a packed symbol (R67). -/
theorem symbolOfBits_toNat (b0 b1 b2 b3 b4 b5 b6 b7 : Bit) :
    (symbolOfBits b0 b1 b2 b3 b4 b5 b6 b7).toNat =
      128 * b0.toNat + 64 * b1.toNat + 32 * b2.toNat + 16 * b3.toNat + 8 * b4.toNat + 4 * b5.toNat + 2 * b6.toNat
        + b7.toNat := by
  revert b0 b1 b2 b3 b4 b5 b6 b7
  decide +kernel

end Sys2Proof.Machine
end

