-- ==== Sys2Proof/Laws/Hamming.lean ====
section
/-! SUPPORT. Lemmas about the Hamming decoder: the loop over windows, lengths, the range of error positions. -/

namespace Sys2Proof.Machine

@[simp] theorem decodeWindows_nil : decodeWindows [] = ([], []) := rfl

@[simp] theorem decodeWindows_cons (c1 c2 c3 c4 c5 c6 c7 : Bit) (rest : Bits) :
    decodeWindows (c1 :: c2 :: c3 :: c4 :: c5 :: c6 :: c7 :: rest) =
      ((decodeBlock c1 c2 c3 c4 c5 c6 c7).1 ++ (decodeWindows rest).1,
        (decodeBlock c1 c2 c3 c4 c5 c6 c7).2 :: (decodeWindows rest).2) := rfl

/-- A list of at least seven bits is a window and the rest. -/
theorem exists_window {b : Bits} (h : 7 ≤ b.length) :
    ∃ c1 c2 c3 c4 c5 c6 c7 rest, b = c1 :: c2 :: c3 :: c4 :: c5 :: c6 :: c7 :: rest := by
  match b, h with
  | c1 :: c2 :: c3 :: c4 :: c5 :: c6 :: c7 :: rest, _ => exact ⟨c1, c2, c3, c4, c5, c6, c7, rest, rfl⟩

/-- Fewer than seven bits give no window. -/
theorem decodeWindows_short {b : Bits} (h : b.length < 7) : decodeWindows b = ([], []) := by
  match b, h with
  | [], _ | [_], _ | [_, _], _ | [_, _, _], _ | [_, _, _, _], _ | [_, _, _, _, _], _ | [_, _, _, _, _, _], _ => rfl
  | _ :: _ :: _ :: _ :: _ :: _ :: _ :: _, h => exact absurd h (by simp)

/-- A property of the windows follows from one that holds of no window and goes from the rest to a window and the rest. -/
theorem windows_induction {motive : Bits → Prop} (short : ∀ b, b.length < 7 → motive b)
    (window : ∀ c1 c2 c3 c4 c5 c6 c7 rest, motive rest → motive (c1 :: c2 :: c3 :: c4 :: c5 :: c6 :: c7 :: rest)) (b : Bits) :
    motive b := by
  induction hn : b.length using Nat.strong_induction_on generalizing b with
  | _ n ih =>
    subst hn
    by_cases h : b.length < 7
    · exact short b h
    · obtain ⟨c1, c2, c3, c4, c5, c6, c7, rest, rfl⟩ := exists_window (b := b) (by omega)
      exact window _ _ _ _ _ _ _ _ (ih rest.length (by simp; omega) rest rfl)

@[simp] theorem decodeBlock_length (c1 c2 c3 c4 c5 c6 c7 : Bit) : (decodeBlock c1 c2 c3 c4 c5 c6 c7).1.length = 4 := rfl

/-- An error position is 0 to 4 (R66). -/
theorem decodeBlock_position (c1 c2 c3 c4 c5 c6 c7 : Bit) : (decodeBlock c1 c2 c3 c4 c5 c6 c7).2.toNat ≤ 4 := by
  revert c1 c2 c3 c4 c5 c6 c7
  decide

/-- Four data bits and one error position for each whole window (R92). -/
theorem decodeWindows_length (b : Bits) :
    (decodeWindows b).1.length = 4 * (b.length / 7) ∧ (decodeWindows b).2.length = b.length / 7 := by
  induction b using windows_induction with
  | short b h => simp [decodeWindows_short h, Nat.div_eq_of_lt h]
  | window c1 c2 c3 c4 c5 c6 c7 rest ih =>
    have hl : (c1 :: c2 :: c3 :: c4 :: c5 :: c6 :: c7 :: rest).length / 7 = rest.length / 7 + 1 := by simp; omega
    rw [hl, decodeWindows_cons, List.length_append, List.length_cons, decodeBlock_length, ih.1, ih.2]
    omega

/-- All error positions of a stream are 0 to 4 (R66). -/
theorem decodeWindows_positions (b : Bits) : ∀ x ∈ (decodeWindows b).2, x.toNat ≤ 4 := by
  induction b using windows_induction with
  | short b h => simp [decodeWindows_short h]
  | window c1 c2 c3 c4 c5 c6 c7 rest ih =>
    intro x hx
    rw [decodeWindows_cons, List.mem_cons] at hx
    obtain rfl | hx := hx
    · exact decodeBlock_position c1 c2 c3 c4 c5 c6 c7
    · exact ih x hx

/-- A window in front of a stream is decoded on its own (R92: "each window is decoded independently of every other"). -/
theorem decodeWindows_append {w rest : Bits} (h : w.length = 7) :
    decodeWindows (w ++ rest) =
      ((decodeWindows w).1 ++ (decodeWindows rest).1, (decodeWindows w).2 ++ (decodeWindows rest).2) := by
  obtain ⟨c1, c2, c3, c4, c5, c6, c7, tail, rfl⟩ := exists_window h.ge
  obtain rfl : tail = [] := by simpa using h
  simp

end Sys2Proof.Machine
end

