-- ==== Sys2Proof/Laws/Host.lean ====
section
/-! SUPPORT. What a step can do, said once: the host's action taken, commands, writes, reads, moves, and the end of any operation. -/

namespace Sys2Proof.Machine

variable {s t : State}

/-! ### Any operation -/

theorem State.complete_sameAt {u : State} {e : Element} (h : u.sameAt s e) : u.complete.sameAt s e := by cases e <;> exact h

@[simp] theorem State.complete_holds (u : State) (e : Element) : u.complete.holds e = u.holds e := by cases e <;> rfl

/-- What an operation that ends can have done: one of its errors, or writes of its destinations alone and completion. -/
theorem exec_next {i : Instr} (h : exec i s = .next t) :
    (∃ e ∈ errorsOf i, t = s.takeError (destinationsOf i) e) ∨
      ∃ u : State, t = u.complete ∧ (∀ e ∈ destinationsOf i, u.holds e = true) ∧
        (∀ e, e ∉ destinationsOf i → u.sameAt s e) ∧ u.cmd = s.cmd ∧ u.caps = s.caps ∧ u.program = s.program ∧
        u.reads = s.reads ∧ (i ≠ .scEnc → u.source = s.source ∧ u.drawn = s.drawn) := by
  have error : ∀ {i : Instr} {e : OpError}, e ∈ errorsOf i →
      (∃ e' ∈ errorsOf i, s.takeError (destinationsOf i) e = s.takeError (destinationsOf i) e') := fun he => ⟨_, he, rfl⟩
  cases i with
  | hamDecblk =>
    obtain ⟨b, _, _, ⟨_, rfl⟩ | ⟨_, rfl⟩⟩ := execHamDecblk_next h
    · exact .inl (error (by simp [errorsOf]))
    · refine .inr ⟨_, rfl, by simp [destinationsOf, State.holds, putBlocks], fun e he => ?_, by simp [putBlocks]⟩
      cases e <;> first | rfl | simp [destinationsOf] at he
  | hamDec =>
    obtain ⟨b, _, _, ⟨_, rfl⟩ | ⟨_, rfl⟩⟩ := execHamDec_next h
    · exact .inl (error (by simp [errorsOf]))
    · refine .inr ⟨_, rfl, by simp [destinationsOf, State.holds, putBlocks], fun e he => ?_, by simp [putBlocks]⟩
      cases e <;> first | rfl | simp [destinationsOf] at he
  | bpPack =>
    obtain ⟨b, _, _, _, rfl⟩ := execBpPack_next h
    refine .inr ⟨_, rfl, by simp [destinationsOf, State.holds], fun e he => ?_, by simp⟩
    cases e <;> first | rfl | simp [destinationsOf] at he
  | bpUnpack =>
    obtain ⟨l, _, _, _, rfl⟩ := execBpUnpack_next h
    refine .inr ⟨_, rfl, by simp [destinationsOf, State.holds], fun e he => ?_, by simp⟩
    cases e <;> first | rfl | simp [destinationsOf] at he
  | scEnc =>
    obtain ⟨b, _, _, rfl⟩ := execScEnc_next h
    refine .inr ⟨_, rfl, by simp [destinationsOf, State.holds, putCipher], fun e he => ?_, by simp [putCipher]⟩
    cases e <;> first | rfl | simp [destinationsOf] at he
  | scDec =>
    obtain ⟨b, k, _, _, _, _, ⟨_, rfl⟩ | ⟨_, rfl⟩⟩ := execScDec_next h
    · exact .inl (error (by simp [errorsOf]))
    · refine .inr ⟨_, rfl, by simp [destinationsOf, State.holds], fun e he => ?_, by simp⟩
      cases e <;> first | rfl | simp [destinationsOf] at he
  | hufFreq =>
    obtain ⟨l, _, _, _, rfl⟩ := execHufFreq_next h
    refine .inr ⟨_, rfl, by simp [destinationsOf, State.holds], fun e he => ?_, by simp⟩
    cases e <;> first | rfl | simp [destinationsOf] at he
  | hufTree =>
    obtain ⟨c, _, _, ⟨_, rfl⟩ | ⟨n, _, _, rfl⟩⟩ := execHufTree_next h
    · exact .inl (error (by simp [errorsOf]))
    · refine .inr ⟨_, rfl, by simp [destinationsOf, State.holds], fun e he => ?_, by simp⟩
      cases e <;> first | rfl | simp [destinationsOf] at he
  | hufCodes =>
    obtain ⟨n, _, rfl⟩ := execHufCodes_next h
    refine .inr ⟨_, rfl, by simp [destinationsOf, State.holds], fun e he => ?_, by simp⟩
    cases e <;> first | rfl | simp [destinationsOf] at he
  | hufEnc =>
    obtain ⟨l, c, _, _, _, ⟨_, rfl⟩ | ⟨b, _, _, rfl⟩⟩ := execHufEnc_next h
    · exact .inl (error (by simp [errorsOf]))
    · refine .inr ⟨_, rfl, by simp [destinationsOf, State.holds], fun e he => ?_, by simp⟩
      cases e <;> first | rfl | simp [destinationsOf] at he
  | hufDec =>
    obtain ⟨b, n, _, _, _, ⟨e, he, rfl⟩ | ⟨l, _, _, rfl⟩⟩ := execHufDec_next h
    · exact .inl (error (by obtain rfl | rfl := decodeBits_error he <;> simp [errorsOf]))
    · refine .inr ⟨_, rfl, by simp [destinationsOf, State.holds], fun e he => ?_, by simp⟩
      cases e <;> first | rfl | simp [destinationsOf] at he

/-! ### A step -/

/-- A step is idle, or performs the host's next action on a block that is idle or for which the action is allowed. -/
theorem step_next (h : step s = .next t) :
    (s.program = [] ∧ t = s) ∨
      ∃ a rest, s.program = a :: rest ∧ (s.busy = false ∨ a.allowedWhileBusy = true) ∧
        performAction a { s with program := rest } = .next t := by
  unfold step hostStep at h
  split at h
  · exact .inl ⟨‹_›, by simpa using h.symm⟩
  · rename_i a rest hp
    unfold hostAct at h
    split at h
    · cases h
    · rename_i hb
      refine .inr ⟨a, rest, hp, ?_, h⟩
      cases hbusy : s.busy
      · exact .inl rfl
      · exact .inr (by simpa [hbusy] using hb)

/-- The step of an idle block performs the host's next action. -/
theorem step_of_idle {a : HostAction} {rest : List HostAction} (hb : s.busy = false) (hp : s.program = a :: rest) :
    step s = performAction a { s with program := rest } := by
  simp [step, hostStep, hp, hostAct, hb]

/-- A CMD write ends as IllegalOp or as its operation does (R31). -/
theorem writeCmd_next {c : Command} (h : writeCmd c s = .next t) :
    (t = { s with cmd := none }.takeError [] .illegalOp) ∨ ∃ i, decode c = .ok i ∧
      exec i { s with cmd := none, busy := true } = .next t := by
  unfold writeCmd takeCommand at h
  dsimp only at h
  split at h
  · exact .inl (by simpa using h.symm)
  · exact .inr ⟨_, ‹_›, h⟩

/-- A host write that is not refused has replaced the element (R54). -/
theorem hostWrite_next {refusal : Option Refusal} {put : State → State} (h : hostWrite refusal put s = .next t) :
    refusal = none ∧ t = put s := by
  unfold hostWrite at h
  split at h
  · cases h
  · exact ⟨rfl, by simpa using h.symm⟩

@[simp] theorem refuseUnless_eq_none {b : Bool} {r : Refusal} : refuseUnless b r = none ↔ b = true := by
  cases b <;> simp [refuseUnless]

/-- A host read that is not refused has noted a value and changed nothing else (R48). -/
theorem hostRead_next {r : Readable} (h : hostRead r s = .next t) : ∃ v, t = s.noteRead r v := by
  unfold hostRead at h
  split at h
  · cases h
  · exact ⟨_, by simpa using h.symm⟩

/-- A move that is not refused has noted the value and made its write the host's next action (R76). -/
theorem moveBits_next {dst : BitOperand} {src : BitResult} (h : moveBits dst src s = .next t) :
    ∃ b, s.bitResult src = some b ∧ t = (s.noteRead src.readable (.bits b)).thenDo [dst.write b] := by
  unfold moveBits at h
  split at h
  · cases h
  · exact ⟨_, ‹_›, by simpa using h.symm⟩

theorem moveSyms_next (h : moveSyms s = .next t) :
    ∃ l, s.sout = some l ∧ t = (s.noteRead .sout (.syms l)).thenDo [.wrSin l] := by
  unfold moveSyms at h
  split at h
  · cases h
  · exact ⟨_, ‹_›, by simpa using h.symm⟩

end Sys2Proof.Machine
end

