-- ==== Sys2Proof/Laws/HuffmanEncoder.lean ====
section
/-! SUPPORT. Lemmas about the Huffman encoder: tables by symbol, counting, selection, the merge loop (its induction said once), paths
and codes. -/

namespace Sys2Proof.Machine

/-! ### Tables by symbol -/

theorem mem_allSymbols (v : Symbol) : v ∈ allSymbols :=
  List.mem_map.2 ⟨v.toNat, List.mem_range.2 v.isLt, by simp⟩

/-- The 256 symbols stand in ascending order, each once. -/
theorem allSymbols_pairwise : allSymbols.Pairwise fun v w => v.toNat < w.toNat := by
  refine List.pairwise_map.2 (List.Pairwise.imp_of_mem (fun ha hb hab => ?_) List.pairwise_lt_range)
  have := List.mem_range.1 ha
  have := List.mem_range.1 hb
  simp
  omega

theorem allSymbols_nodup : allSymbols.Nodup :=
  allSymbols_pairwise.imp fun h heq => by simp [heq] at h

/-- The list of a frequency table's counts is the counts of the symbols in order. -/
theorem toList_eq_map_countOf (t : FreqTable) : t.toList = allSymbols.map (countOf t) := by
  refine List.ext_getElem (by simp [allSymbols]) fun i hi _ => ?_
  have hi' : i < 256 := by simpa using hi
  simp [allSymbols, countOf, Nat.mod_eq_of_lt hi']

/-- The list of a code table's entries is the entries of the symbols in order. -/
theorem toList_eq_map_codeOf (t : CodeTable) : t.toList = allSymbols.map (codeOf t) := by
  refine List.ext_getElem (by simp [allSymbols]) fun i hi _ => ?_
  have hi' : i < 256 := by simpa using hi
  simp [allSymbols, codeOf, Nat.mod_eq_of_lt hi']

/-- Every count fits exactly when the count of every symbol does (R19). -/
theorem fitsCounts_iff {c : Capacities} {t : FreqTable} :
    fitsCounts c t = true ↔ ∀ v : Symbol, fitsCount c (countOf t v) = true := by
  simp [fitsCounts, toList_eq_map_countOf, mem_allSymbols]

/-- A code table is legal exactly when every entry is (R21). -/
theorem codeTableLegal_iff {t : CodeTable} :
    codeTableLegal t = true ↔ ∀ (v : Symbol) (c : Bits), codeOf t v = some c → 1 ≤ c.length ∧ c.length ≤ 255 := by
  simp only [codeTableLegal, toList_eq_map_codeOf, List.all_map, List.all_eq_true, Function.comp, mem_allSymbols, true_implies]
  refine forall_congr' fun v => ?_
  cases h : codeOf t v <;> simp [codeEntryLegal]

@[simp] theorem codeOf_noCodes (v : Symbol) : codeOf noCodes v = none := by simp [codeOf, noCodes]

/-- Recording a code changes the entry of its symbol and no other (R140). -/
theorem codeOf_recordCode (t : CodeTable) (v w : Symbol) (path : Bits) :
    codeOf (recordCode t v path) w = if w = v then some path else codeOf t w := by
  unfold codeOf recordCode
  rw [Vector.getElem_set]
  simp [BitVec.toNat_inj, eq_comm]

/-! ### Counting -/

@[simp] theorem countOf_countSymbols (l : Symbols) (v : Symbol) : countOf (countSymbols l) v = l.count v := by
  simp [countOf, countSymbols]

/-- The sum over a list of 1 where the element is `x` is how often `x` stands in it. -/
theorem sum_indicator (l : Symbols) (x : Symbol) : (l.map fun v => if x = v then 1 else 0).sum = l.count x := by
  induction l with
  | nil => rfl
  | cons v rest ih =>
    rw [List.map_cons, List.sum_cons, ih, List.count_cons, Nat.add_comm]
    by_cases h : x = v <;> simp [h, Ne.symm]

/-- The counts of a stream sum to its length (R130). -/
theorem countSymbols_sum (l : Symbols) : (countSymbols l).toList.sum = l.length := by
  rw [toList_eq_map_countOf, show countOf (countSymbols l) = fun v => l.count v from funext fun v => by simp]
  induction l with
  | nil => simp
  | cons x rest ih =>
    have h1 : (allSymbols.map fun v => if x = v then 1 else 0).sum = 1 := by
      rw [sum_indicator, List.count_eq_one_of_mem allSymbols_nodup (mem_allSymbols x)]
    have h2 : ∀ v : Symbol, (x :: rest).count v = rest.count v + if x = v then 1 else 0 := by
      intro v
      simp [List.count_cons]
    simp only [h2, List.sum_map_add, ih, h1, List.length_cons]

/-! ### Selection -/

/-- Selecting removes the node selected and nothing else (R134). -/
theorem selectLeast_perm (x : Candidate) (rest : List Candidate) :
    ((selectLeast x rest).1 :: (selectLeast x rest).2).Perm (x :: rest) := by
  induction rest generalizing x with
  | nil => exact .refl _
  | cons y ys ih =>
    simp only [selectLeast]
    split
    · exact .refl _
    · exact (List.Perm.swap _ _ _).trans ((ih y).cons x)

@[simp] theorem selectLeast_length (x : Candidate) (rest : List Candidate) :
    (selectLeast x rest).2.length = rest.length := by
  simpa using (selectLeast_perm x rest).length_eq

theorem Candidate.atMost_iff {a b : Candidate} :
    a.atMost b = true ↔ a.tree.frequency < b.tree.frequency ∨ (a.tree.frequency = b.tree.frequency ∧ a.id ≤ b.id) := by
  simp [Candidate.atMost]

theorem Candidate.atMost_trans {a b c : Candidate} (h : a.atMost b = true) (h' : b.atMost c = true) : a.atMost c = true := by
  rw [Candidate.atMost_iff] at *
  omega

/-- The node selected is at most every node that remains (R134). -/
theorem selectLeast_atMost (x : Candidate) (rest : List Candidate) :
    ∀ c ∈ (selectLeast x rest).2, (selectLeast x rest).1.atMost c = true := by
  induction rest generalizing x with
  | nil => simp [selectLeast]
  | cons y ys ih =>
    have hmem : ∀ c ∈ y :: ys, (selectLeast y ys).1.atMost c = true := by
      intro c hc
      obtain rfl | hc := List.mem_cons.1 ((selectLeast_perm y ys).mem_iff.2 hc)
      · simp [Candidate.atMost]
      · exact ih y c hc
    simp only [selectLeast]
    split
    · exact fun c hc => Candidate.atMost_trans ‹_› (hmem c hc)
    · rename_i hx
      intro c hc
      obtain rfl | hc := List.mem_cons.1 hc
      · have hx' := mt Candidate.atMost_iff.2 hx
        refine Candidate.atMost_iff.2 ?_
        dsimp only
        omega
      · exact ih y c hc

/-- The node that is strictly below all others is the one selected (R134). -/
theorem selectLeast_eq {x a : Candidate} {rest others : List Candidate} (hp : (a :: others).Perm (x :: rest))
    (hlt : ∀ c ∈ others, a.tree.frequency < c.tree.frequency ∨ (a.tree.frequency = c.tree.frequency ∧ a.id < c.id)) :
    (selectLeast x rest).1 = a ∧ (selectLeast x rest).2.Perm others := by
  have hsel := selectLeast_perm x rest
  have ha : (selectLeast x rest).1 = a := by
    by_contra hne
    have h1 : a ∈ (selectLeast x rest).2 := by
      have := hsel.mem_iff.2 (hp.mem_iff.1 List.mem_cons_self)
      simpa [Ne.symm hne] using this
    have h2 : (selectLeast x rest).1 ∈ others := by
      have := hp.mem_iff.2 (hsel.mem_iff.1 List.mem_cons_self)
      simpa [hne] using this
    have h3 := Candidate.atMost_iff.1 (selectLeast_atMost x rest a h1)
    have h4 := hlt _ h2
    omega
  exact ⟨ha, (ha ▸ hsel.trans hp.symm).cons_inv⟩

/-! ### The merge loop -/

/-- One turn of the loop (R135): the least and the second least node are replaced by their merge. -/
theorem mergeLoop_turn (steps nextId : Nat) (x y : Candidate) (ys : List Candidate) :
    ∃ a b others, (a :: b :: others).Perm (x :: y :: ys) ∧ others.length = ys.length ∧
      mergeLoop (steps + 1) nextId x (y :: ys) = mergeLoop steps (nextId + 1) (mergeNodes nextId a b) others := by
  have hperm := selectLeast_perm x (y :: ys)
  cases hr : (selectLeast x (y :: ys)).2 with
  | nil =>
    have := selectLeast_length x (y :: ys)
    simp [hr] at this
  | cons z zs =>
    refine ⟨(selectLeast x (y :: ys)).1, (selectLeast z zs).1, (selectLeast z zs).2, ?_, ?_, ?_⟩
    · exact ((selectLeast_perm z zs).cons _).trans (hr ▸ hperm)
    · have := selectLeast_length x (y :: ys)
      simpa [hr] using this
    · simp [mergeLoop, hr]

/-- Induction over the merge loop: what a merge and a change of order keep of the list of available nodes holds of the result. -/
theorem mergeLoop_induction {Inv : List Candidate → Prop} (perm : ∀ l l', l.Perm l' → Inv l → Inv l')
    (merge : ∀ i a b others, Inv (a :: b :: others) → Inv (mergeNodes i a b :: others)) (steps nextId : Nat) (x : Candidate)
    (rest : List Candidate) (hlen : rest.length ≤ steps) (h : Inv (x :: rest)) :
    ∃ i, Inv [{ id := i, tree := mergeLoop steps nextId x rest }] := by
  induction steps generalizing nextId x rest with
  | zero =>
    obtain rfl : rest = [] := List.length_eq_zero_iff.1 (by omega)
    exact ⟨x.id, h⟩
  | succ steps ih =>
    cases rest with
    | nil => exact ⟨x.id, h⟩
    | cons y ys =>
      obtain ⟨a, b, others, hp, hl, he⟩ := mergeLoop_turn steps nextId x y ys
      rw [he]
      exact ih (nextId + 1) _ others (by simp at hlen; omega) (merge _ _ _ _ (perm _ _ hp.symm h))

/-- The symbols of a tree are those of its leaves. -/
theorem HuffmanNode.symbols_eq (n : HuffmanNode) : n.symbols = n.leaves.map Prod.fst := by
  induction n with
  | leaf v f => rfl
  | internal f l r ihl ihr => simp [HuffmanNode.symbols, HuffmanNode.leaves, ihl, ihr]

/-- What is built from a table that has a leaf: its leaves are the table's, it has one Internal node fewer, its frequencies are
sums, and the root's is the sum of all leaves' (R136). -/
theorem buildTree_ok {t : FreqTable} {n : HuffmanNode} (h : buildTree t = .ok n) :
    n.leaves.Perm ((nonzeroSymbols t).map fun v => (v, countOf t v)) ∧
      n.internals + 1 = (nonzeroSymbols t).length ∧ n.sumsHold ∧
      n.frequency = ((nonzeroSymbols t).map (countOf t)).sum := by
  have hcand : leafCandidates t =
      (nonzeroSymbols t).map fun v => { id := v.toNat, tree := HuffmanNode.leaf v (countOf t v) } := rfl
  unfold buildTree at h
  cases hc : leafCandidates t with
  | nil => simp [hc] at h
  | cons x rest =>
    simp only [hc, Except.ok.injEq] at h
    subst h
    have key := mergeLoop_induction (Inv := fun l =>
      (l.flatMap fun c => c.tree.leaves).Perm ((nonzeroSymbols t).map fun v => (v, countOf t v)) ∧
      (l.map fun c => c.tree.internals).sum + l.length = (nonzeroSymbols t).length ∧
      (∀ c ∈ l, c.tree.sumsHold) ∧
      (l.map fun c => c.tree.frequency).sum = ((nonzeroSymbols t).map (countOf t)).sum)
      (fun l l' hp ⟨h1, h2, h3, h4⟩ => by
        refine ⟨(hp.symm.flatMap_right _).trans h1, ?_, fun c hc => h3 c (hp.mem_iff.2 hc), ?_⟩
        · rw [← h2, (hp.map _).sum_eq, hp.length_eq]
        · rw [← h4, (hp.map _).sum_eq])
      (fun i a b others ⟨h1, h2, h3, h4⟩ => by
        refine ⟨?_, ?_, ?_, ?_⟩
        · refine List.Perm.trans ?_ h1
          simp only [List.flatMap_cons, mergeNodes, HuffmanNode.leaves]
          rw [← List.append_assoc]
          exact List.perm_append_comm.append_right _
        · simp [mergeNodes, HuffmanNode.internals] at h2 ⊢
          omega
        · intro c hc
          obtain rfl | hc := List.mem_cons.1 hc
          · exact ⟨Nat.add_comm _ _, h3 b (by simp), h3 a (by simp)⟩
          · exact h3 c (by simp [hc])
        · simp [mergeNodes, HuffmanNode.frequency] at h4 ⊢
          omega)
      rest.length 256 x rest (Nat.le_refl _) (by
        rw [← hc, hcand]
        refine ⟨?_, ?_, ?_, ?_⟩
        · simp only [List.flatMap_map, HuffmanNode.leaves, ← List.map_eq_flatMap]
          exact .refl _
        · simp [HuffmanNode.internals, Function.comp_def]
        · simp [HuffmanNode.sumsHold]
        · simp [HuffmanNode.frequency, Function.comp_def])
    obtain ⟨_, h1, h2, h3, h4⟩ := key
    exact ⟨by simpa using h1, by simpa using h2, by simpa using h3, by simpa using h4⟩

/-- Counts of 0 add nothing: the sum of a table is the sum over its non-zero symbols. -/
theorem sum_nonzeroSymbols (t : FreqTable) : ((nonzeroSymbols t).map (countOf t)).sum = t.toList.sum := by
  rw [toList_eq_map_countOf]
  unfold nonzeroSymbols
  generalize allSymbols = l
  induction l with
  | nil => rfl
  | cons v rest ih =>
    by_cases h : 0 < countOf t v
    · simp [h, ih]
    · simp [h, ih]
      omega

theorem mem_nonzeroSymbols {t : FreqTable} {v : Symbol} : v ∈ nonzeroSymbols t ↔ 0 < countOf t v := by
  simp [nonzeroSymbols, mem_allSymbols]

theorem nonzeroSymbols_nodup (t : FreqTable) : (nonzeroSymbols t).Nodup := allSymbols_nodup.filter _

theorem nonzeroSymbols_length_le (t : FreqTable) : (nonzeroSymbols t).length ≤ 256 :=
  (List.length_filter_le _ _).trans_eq (by simp [allSymbols])

/-- There is an error exactly when there is no leaf (R138). -/
theorem leafCandidates_eq_nil {t : FreqTable} : leafCandidates t = [] ↔ ∀ v : Symbol, countOf t v = 0 := by
  simp [leafCandidates, List.filter_eq_nil_iff, mem_allSymbols]

/-- The symbols of a built tree are the symbols of non-zero count (R133). -/
theorem buildTree_symbols {t : FreqTable} {n : HuffmanNode} (h : buildTree t = .ok n) : n.symbols.Perm (nonzeroSymbols t) := by
  rw [HuffmanNode.symbols_eq]
  simpa [Function.comp_def] using (buildTree_ok h).1.map Prod.fst

/-! ### Paths -/

@[simp] theorem HuffmanNode.follow_nil (n : HuffmanNode) : n.follow [] = some n := by cases n <;> rfl

@[simp] theorem HuffmanNode.follow_leaf_cons (v : Symbol) (f : Nat) (b : Bit) (path : Bits) :
    (HuffmanNode.leaf v f).follow (b :: path) = none := rfl

@[simp] theorem HuffmanNode.follow_left (f : Nat) (l r : HuffmanNode) (path : Bits) :
    (HuffmanNode.internal f l r).follow (false :: path) = l.follow path := rfl

@[simp] theorem HuffmanNode.follow_right (f : Nat) (l r : HuffmanNode) (path : Bits) :
    (HuffmanNode.internal f l r).follow (true :: path) = r.follow path := rfl

/-- Following two paths in turn. -/
theorem HuffmanNode.follow_append {n m : HuffmanNode} {p q : Bits} (h : n.follow p = some m) :
    n.follow (p ++ q) = m.follow q := by
  induction p generalizing n with
  | nil => simp_all
  | cons b p ih =>
    cases n with
    | leaf v f => simp at h
    | internal f l r => cases b <;> exact ih h

/-- A path to a leaf ends at a symbol of the tree. -/
theorem HuffmanNode.mem_symbols_of_follow {n : HuffmanNode} {p : Bits} {v : Symbol} {g : Nat}
    (h : n.follow p = some (.leaf v g)) : v ∈ n.symbols := by
  induction n generalizing p with
  | leaf w f =>
    cases p with
    | nil => simp_all [HuffmanNode.symbols]
    | cons b p => simp at h
  | internal f l r ihl ihr =>
    match p with
    | [] => simp at h
    | false :: p => simpa [HuffmanNode.symbols] using .inl (ihl h)
    | true :: p => simpa [HuffmanNode.symbols] using .inr (ihr h)

/-- Every symbol of a tree has a path to a leaf of it. -/
theorem HuffmanNode.exists_path {n : HuffmanNode} {v : Symbol} (h : v ∈ n.symbols) :
    ∃ p g, n.follow p = some (.leaf v g) := by
  induction n with
  | leaf w f => exact ⟨[], f, by simp_all [HuffmanNode.symbols]⟩
  | internal f l r ihl ihr =>
    obtain hl | hr := List.mem_append.1 h
    · obtain ⟨p, g, hp⟩ := ihl hl
      exact ⟨false :: p, g, hp⟩
    · obtain ⟨p, g, hp⟩ := ihr hr
      exact ⟨true :: p, g, hp⟩

/-- A path in a tree passes at most every Internal node (R145 a). -/
theorem HuffmanNode.follow_length {n m : HuffmanNode} {p : Bits} (h : n.follow p = some m) : p.length ≤ n.internals := by
  induction n generalizing p with
  | leaf w f =>
    cases p with
    | nil => simp
    | cons b p => simp at h
  | internal f l r ihl ihr =>
    match p with
    | [] => simp
    | false :: p =>
      have := ihl h
      simp [HuffmanNode.internals]
      omega
    | true :: p =>
      have := ihr h
      simp [HuffmanNode.internals]
      omega

/-- A tree has one Internal node fewer than leaves. -/
theorem HuffmanNode.internals_symbols (n : HuffmanNode) : n.internals + 1 = n.symbols.length := by
  induction n with
  | leaf v f => rfl
  | internal f l r ihl ihr =>
    simp [HuffmanNode.internals, HuffmanNode.symbols]
    omega

/-- Different symbols: at most 256 (R20). -/
theorem symbols_length_le {l : Symbols} (h : l.Nodup) : l.length ≤ 256 := by
  have := (List.subperm_of_subset h fun v _ => mem_allSymbols v).length_le
  simpa [allSymbols] using this

/-! ### Codes -/

/-- What the walk leaves in the table, where leaf symbols are pairwise different: its path and on to the leaf for a symbol of
the tree, the old entry for any other (R140). -/
theorem codeOf_walkCodes {n : HuffmanNode} (hn : n.symbols.Nodup) (path : Bits) (t : CodeTable) (v : Symbol) (c : Bits) :
    codeOf (walkCodes n path t) v = some c ↔
      (v ∉ n.symbols ∧ codeOf t v = some c) ∨ ∃ q g, c = path ++ q ∧ n.follow q = some (.leaf v g) := by
  induction n generalizing path t with
  | leaf w f =>
    simp only [walkCodes, codeOf_recordCode, HuffmanNode.symbols, List.mem_singleton]
    by_cases h : v = w
    · subst h
      simp only [if_true, not_true_eq_false, false_and, false_or, Option.some.injEq]
      constructor
      · rintro rfl
        exact ⟨[], f, by simp, by simp⟩
      · rintro ⟨q, g, rfl, hq⟩
        cases q with
        | nil => simp
        | cons b q => simp at hq
    · simp only [h, not_false_eq_true, true_and]
      constructor
      · exact .inl
      · rintro (h' | ⟨q, g, _, hq⟩)
        · exact h'
        · exact absurd (HuffmanNode.mem_symbols_of_follow hq) (by simpa [HuffmanNode.symbols] using h)
  | internal f l r ihl ihr =>
    obtain ⟨hl, hr, hd⟩ := List.nodup_append.1 hn
    rw [walkCodes, ihr hr, ihl hl]
    constructor
    · rintro (⟨hvr, ⟨hvl, ht⟩ | ⟨q, g, rfl, hq⟩⟩ | ⟨q, g, rfl, hq⟩)
      · exact .inl ⟨by simp [HuffmanNode.symbols, hvl, hvr], ht⟩
      · exact .inr ⟨false :: q, g, by simp, hq⟩
      · exact .inr ⟨true :: q, g, by simp, hq⟩
    · rintro (⟨hv, ht⟩ | ⟨q, g, rfl, hq⟩)
      · simp only [HuffmanNode.symbols, List.mem_append, not_or] at hv
        exact .inl ⟨hv.2, .inl ⟨hv.1, ht⟩⟩
      · match q with
        | [] => simp at hq
        | false :: q =>
          have hvl := HuffmanNode.mem_symbols_of_follow (n := l) hq
          exact .inl ⟨fun hvr => hd v hvl v hvr rfl, .inr ⟨q, g, by simp, hq⟩⟩
        | true :: q => exact .inr ⟨q, g, by simp, hq⟩

/-- The codes of an Internal root are the paths to its leaves (R140). -/
theorem codeOf_assignCodes_internal {f : Nat} {l r : HuffmanNode} (hn : (HuffmanNode.internal f l r).symbols.Nodup)
    (v : Symbol) (c : Bits) :
    codeOf (assignCodes (.internal f l r)) v = some c ↔ ∃ g, (HuffmanNode.internal f l r).follow c = some (.leaf v g) := by
  rw [assignCodes, codeOf_walkCodes hn]
  simp

/-- The code of a single Leaf (R141). -/
theorem codeOf_assignCodes_leaf (v w : Symbol) (f : Nat) :
    codeOf (assignCodes (.leaf v f)) w = if w = v then some [false] else none := by
  rw [assignCodes, codeOf_recordCode, codeOf_noCodes]

/-- Every code of a legal tree has 1 to 255 bits (R21, R145 a). -/
theorem assignCodes_legal {n : HuffmanNode} (hn : n.symbols.Nodup) : codeTableLegal (assignCodes n) = true := by
  rw [codeTableLegal_iff]
  intro v c hc
  cases n with
  | leaf w f =>
    rw [codeOf_assignCodes_leaf] at hc
    split at hc
    · cases hc
      simp
    · cases hc
  | internal f l r =>
    obtain ⟨g, hg⟩ := (codeOf_assignCodes_internal hn v c).1 hc
    have h1 := HuffmanNode.follow_length hg
    have h2 := HuffmanNode.internals_symbols (.internal f l r)
    have h3 := symbols_length_le hn
    refine ⟨?_, by omega⟩
    cases c with
    | nil => simp at hg
    | cons b c => simp

/-! ### Encoding -/

/-- `encode` succeeds where every symbol has a code, with the codes in order (R143). -/
theorem encodeSymbols_ok {t : CodeTable} {l : Symbols} (h : ∀ v ∈ l, (codeOf t v).isSome = true) :
    encodeSymbols t l = .ok (l.flatMap fun v => (codeOf t v).getD []) := by
  induction l with
  | nil => rfl
  | cons v rest ih =>
    obtain ⟨c, hc⟩ := Option.isSome_iff_exists.1 (h v (by simp))
    simp [encodeSymbols, hc, ih fun w hw => h w (by simp [hw])]

/-- `encode` fails where some symbol has no code (R143). -/
theorem encodeSymbols_unknown {t : CodeTable} {l : Symbols} (h : ∃ v ∈ l, codeOf t v = none) :
    encodeSymbols t l = .error .unknownSymbol := by
  induction l with
  | nil => simp at h
  | cons v rest ih =>
    cases hc : codeOf t v with
    | none => simp [encodeSymbols, hc]
    | some c =>
      have : ∃ w ∈ rest, codeOf t w = none := by simpa [hc] using h
      simp [encodeSymbols, hc, ih this]

end Sys2Proof.Machine
end

