-- ==== Sys2Proof/Laws/HuffmanDecoder.lean ====
section
/-! SUPPORT. Lemmas about the Huffman decoder: the walk from a node, along a path to a leaf, and what any successful walk did. -/

namespace Sys2Proof.Machine

/-- A node with a path to a leaf below it walks that path, emits the leaf's symbol and starts again at the root (R160). -/
theorem walkBits_path {root n : HuffmanNode} {a : Bit} {b : Bit} {p rest : Bits} {v : Symbol} {g : Nat}
    (h : n.follow (b :: p) = some (.leaf v g)) :
    walkBits root n a (b :: p ++ rest) = emit v (walkBits root root true rest) := by
  induction p generalizing n a b with
  | nil =>
    cases n with
    | leaf w f => simp at h
    | internal f l r => cases b <;> simp_all [walkBits, HuffmanNode.child]
  | cons c p ih =>
    cases n with
    | leaf w f => simp at h
    | internal f l r =>
      cases b with
      | false =>
        cases l with
        | leaf w f' => simp at h
        | internal f' l' r' => simpa [walkBits, HuffmanNode.child] using ih (a := false) h
      | true =>
        cases r with
        | leaf w f' => simp at h
        | internal f' l' r' => simpa [walkBits, HuffmanNode.child] using ih (a := false) h

/-- A successful walk from an Internal node either had no bits left at the root, or first followed a path to a leaf (R160). -/
theorem walkBits_ok {root : HuffmanNode} {f : Nat} {l r : HuffmanNode} {a : Bit} {b : Bits} {out : Symbols}
    (h : walkBits root (.internal f l r) a b = .ok out) :
    (a = true ∧ b = [] ∧ out = []) ∨
      ∃ c p rest v g out', b = c :: p ++ rest ∧ (HuffmanNode.internal f l r).follow (c :: p) = some (.leaf v g) ∧
        out = v :: out' ∧ walkBits root root true rest = .ok out' := by
  induction b generalizing f l r a out with
  | nil => cases a <;> simp_all [walkBits]
  | cons c rest ih =>
    have key : ∀ m : HuffmanNode, (HuffmanNode.internal f l r).child c = m →
        (HuffmanNode.internal f l r).follow [c] = some m := by
      intro m hm
      cases c <;> simp_all [HuffmanNode.child]
    unfold walkBits at h
    split at h
    · rename_i v g hc
      obtain ⟨out', hout, rfl⟩ := emit_eq_ok.1 h
      exact .inr ⟨c, [], rest, v, g, out', rfl, key _ hc, rfl, hout⟩
    · rename_i f' l' r' hc
      obtain ⟨ha, _, _⟩ | ⟨d, p, rest', v, g, out', rfl, hp, rfl, hout⟩ := ih h
      · cases ha
      · refine .inr ⟨c, d :: p, rest', v, g, out', rfl, ?_, rfl, hout⟩
        have := HuffmanNode.follow_append (q := d :: p) (key _ hc)
        simpa [hp] using this

/-- Paths to leaves decode to the leaves' symbols in order (R160). -/
theorem decodeBits_paths {f : Nat} {l r : HuffmanNode} {paths : List Bits} {out : Symbols}
    (h : List.Forall₂ (fun c v => ∃ g, (HuffmanNode.internal f l r).follow c = some (.leaf v g)) paths out) :
    decodeBits (.internal f l r) paths.flatten = .ok out := by
  simp only [decodeBits]
  induction h with
  | nil => rfl
  | @cons c v paths out hc hrest ih =>
    obtain ⟨g, hc⟩ := hc
    cases c with
    | nil => simp at hc
    | cons b p => rw [List.flatten_cons, walkBits_path hc, ih]; rfl

/-- What decodes with an Internal root is a concatenation of paths to leaves (R160). -/
theorem decodeBits_ok {f : Nat} {l r : HuffmanNode} {b : Bits} {out : Symbols}
    (h : decodeBits (.internal f l r) b = .ok out) :
    ∃ paths, b = paths.flatten ∧
      List.Forall₂ (fun c v => ∃ g, (HuffmanNode.internal f l r).follow c = some (.leaf v g)) paths out := by
  simp only [decodeBits] at h
  induction out generalizing b with
  | nil =>
    obtain ⟨_, rfl, _⟩ | ⟨c, p, rest, v, g, out', _, _, ho, _⟩ := walkBits_ok h
    · exact ⟨[], rfl, .nil⟩
    · cases ho
  | cons v out ih =>
    obtain ⟨_, _, ho⟩ | ⟨c, p, rest, w, g, out', rfl, hp, ho, h⟩ := walkBits_ok h
    · cases ho
    · cases ho
      obtain ⟨paths, rfl, hf⟩ := ih h
      exact ⟨(c :: p) :: paths, rfl, .cons ⟨g, hp⟩ hf⟩

/-- With a Leaf root the errors are InvalidCode (R161), with an Internal one TruncatedStream (R160). -/
theorem decodeBits_internal_error {f : Nat} {l r : HuffmanNode} {b : Bits} {e : OpError}
    (h : decodeBits (.internal f l r) b = .error e) : e = .truncatedStream :=
  walkBits_error h

/-- 0 bits decode to the single symbol (R161). -/
theorem decodeSingle_zeros (v : Symbol) (n : Nat) : decodeSingle v (List.replicate n false) = .ok (List.replicate n v) := by
  induction n with
  | zero => rfl
  | succ n ih => simp [List.replicate_succ, decodeSingle, ih]

/-- A 1 bit is no code of a single Leaf (R161). -/
theorem decodeSingle_one (v : Symbol) {b : Bits} (h : true ∈ b) : decodeSingle v b = .error .invalidCode := by
  induction b with
  | nil => cases h
  | cons c rest ih =>
    cases c with
    | true => rfl
    | false => simp [decodeSingle, ih (by simpa using h)]

end Sys2Proof.Machine
end

