-- ==== Sys2Proof/Laws/PerInstr.lean ====
section
/-! SUPPORT. One statement said of every operation: its command word is none of the reserved ones (spec/30_encoding.md R61, R62). -/

namespace Sys2Proof.Laws.CommandWord

/-- The word an operation is issued by is well formed, and the decoder reads the operation from it. -/
def Statement (i : Instr) : Prop := Command.wf (encode i) = true ∧ decode (encode i) = .ok i

theorem hamDecblk : Statement .hamDecblk := by constructor <;> decide
theorem hamDec : Statement .hamDec := by constructor <;> decide
theorem bpPack : Statement .bpPack := by constructor <;> decide
theorem bpUnpack : Statement .bpUnpack := by constructor <;> decide
theorem scEnc : Statement .scEnc := by constructor <;> decide
theorem scDec : Statement .scDec := by constructor <;> decide
theorem hufFreq : Statement .hufFreq := by constructor <;> decide
theorem hufTree : Statement .hufTree := by constructor <;> decide
theorem hufCodes : Statement .hufCodes := by constructor <;> decide
theorem hufEnc : Statement .hufEnc := by constructor <;> decide
theorem hufDec : Statement .hufDec := by constructor <;> decide

end Sys2Proof.Laws.CommandWord
end

