-- ==== Sys2Proof/Laws/StreamCipher.lean ====
section
/-! SUPPORT. Lemmas about the stream cipher's bitwise function (spec/42_stream_cipher.md R120, R123). -/

namespace Sys2Proof.Machine

@[simp] theorem xorSeq_nil_left (k : Bits) : xorSeq [] k = [] := rfl

@[simp] theorem xorSeq_cons (a b : Bit) (p k : Bits) : xorSeq (a :: p) (b :: k) = (a ^^ b) :: xorSeq p k := rfl

/-- The result has the operands' length (R120). -/
theorem xorSeq_length {p k : Bits} (h : p.length = k.length) : (xorSeq p k).length = p.length := by
  simp [xorSeq, h]

/-- Element `i` is the xor of the elements `i` (R120). -/
theorem xorSeq_getD {p k : Bits} (h : p.length = k.length) {i : Nat} (hi : i < p.length) :
    (xorSeq p k).getD i false = (p.getD i false ^^ k.getD i false) := by
  have hk : i < k.length := h ▸ hi
  simp [xorSeq, List.getD_eq_getElem?_getD, hi, hk]

end Sys2Proof.Machine
end

