-- ==== Sys2Proof/Tests/Slice0.lean ====
section
/-! SUPPORT. The model's own tests: command words, one step of each operation with the results of spec/95_test_vectors.md, and for
every statement with hypotheses a witness that meets them all, at the boundary where a hypothesis is a range. -/

namespace Sys2Proof.Tests

open Sys2Proof Sys2Proof.Machine

set_option Elab.async false

/-- Bits from a numeral: `n` as `len` bits, the first the most significant, as the vectors are written. -/
def bits (len n : Nat) : Bits := (List.range len).map fun j => n.testBit (len - 1 - j)

/-- Symbols from numbers. -/
def syms (l : List Nat) : Symbols := l.map (BitVec.ofNat 8)

/-- What a view of the next state shows, if there is a next state. -/
def shows {α : Type} (r : Result) (view : State → α) : Option α :=
  match r with
  | .next t => some (view t)
  | .fault _ => none
  | .refused _ => none

/-- Why a step is refused, if it is. -/
def reason (r : Result) : Option Refusal :=
  match r with
  | .next _ => none
  | .fault _ => none
  | .refused x => some x

/-- After reset, with a value in BIN0. -/
def onBin0 (b : Bits) : State := State.reset.setBin0 b

/-- After reset, with a value in SIN. -/
def onSin (l : Symbols) : State := State.reset.setSin l

/-- After reset, with the frequency table of a stream. -/
def onFt (l : List Nat) : State := State.reset.setFt (countSymbols (syms l))

/-- After reset, with a tree. -/
def onTree (n : HuffmanNode) : State := State.reset.setTree n

/-- After reset, with host actions to perform. -/
def asked (l : List HostAction) : State := { State.reset with program := l }

/-- A state with other capacities. -/
def limited (maxBits maxSyms cntW : Nat) (s : State) : State :=
  { s with caps := { maxBits := some maxBits, maxSyms := some maxSyms, cntW := some cntW } }

/-- The tree of row 1 of V-HUF. -/
def rowOneTree : HuffmanNode := .internal 4 (.leaf 0 3) (.leaf 1 1)

/-- The tree of row 7 of V-HUF, "abracadabra". -/
def rowSevenTree : HuffmanNode :=
  .internal 11 (.internal 6 (.internal 4 (.leaf 114 2) (.leaf 98 2)) (.internal 2 (.leaf 100 1) (.leaf 99 1))) (.leaf 97 5)

/-- The code table of row 1 of V-HUF. -/
def rowOneCodes : CodeTable := recordCode (recordCode noCodes 0 [false]) 1 [true]

/-- The leaves of a stream's table, with the counts written out: the form the kernel evaluates quickly. -/
theorem leafCandidates_countSymbols (l : Symbols) :
    leafCandidates (countSymbols l) =
      (allSymbols.filter fun v => decide (0 < l.count v)).map fun v => { id := v.toNat, tree := .leaf v (l.count v) } := by
  simp only [leafCandidates, countOf_countSymbols]

theorem fitsCounts_countSymbols {c : Capacities} {l : Symbols} (h : fitsCount c l.length = true) :
    fitsCounts c (countSymbols l) = true := by
  rw [fitsCounts_iff]
  exact fun v => fitsCount_mono (by simpa using List.count_le_length) h

theorem overCounts_countSymbols {c : Capacities} {l : Symbols} (v : Symbol) (h : fitsCount c (l.count v) = false) :
    fitsCounts c (countSymbols l) = false := by
  cases hc : fitsCounts c (countSymbols l) with
  | false => rfl
  | true =>
    have := fitsCounts_iff.1 hc v
    rw [countOf_countSymbols, h] at this
    cases this

theorem exec_hufTree_onFt (l : List Nat) :
    exec .hufTree (onFt l) =
      conclude [.tree] (buildTree (countSymbols (syms l))) (overUnless .tree fun n => fitsCount Capacities.unbounded n.frequency)
        State.setTree (onFt l) := by
  have hf : fitsCounts (onFt l).caps (countSymbols (syms l)) = true := fitsCounts_unbounded _
  simp only [exec, execHufTree]
  rw [State.withFt_some (t := countSymbols (syms l)) rfl hf]
  rfl

/-! ### Command words (R60 to R62) -/

theorem test_wf_refuses_reserved_words :
    Command.wf 0b0000 = false ∧ Command.wf 0b1100 = false ∧ Command.wf 0b1101 = false ∧ Command.wf 0b1110 = false ∧
      Command.wf 0b1111 = false := by decide

theorem test_wf_accepts_every_operation : ∀ i : Instr, i.wf = true := by
  intro i
  cases i <;> decide

theorem test_decode_hamming : decodeTableWord 4 0b0001 = some .hamDecblk ∧ decodeTableWord 8 0b00000010 = some .hamDec := by decide

theorem test_decode_bitpacker : decodeTableWord 8 0b00000011 = some .bpPack ∧ decodeTableWord 8 0b00000100 = some .bpUnpack := by
  decide

theorem test_decode_cipher : decodeTableWord 8 0b00000101 = some .scEnc ∧ decodeTableWord 8 0b00000110 = some .scDec := by decide

theorem test_decode_huffman_encoder :
    decodeTableWord 8 0b00000111 = some .hufFreq ∧ decodeTableWord 8 0b00001000 = some .hufTree ∧
      decodeTableWord 8 0b00001001 = some .hufCodes ∧ decodeTableWord 8 0b00001010 = some .hufEnc := by decide

theorem test_decode_huffman_decoder : decodeTableWord 8 0b00001011 = some .hufDec := by decide

theorem test_decode_refuses :
    decodeTableWord 8 0b00000000 = none ∧ decodeTableWord 8 0b00001100 = none ∧ decodeTableWord 8 0b00010001 = none := by decide

/-! ### Single steps; the expected results are rows of spec/95_test_vectors.md -/

theorem test_hamDecblk_corrects_bit_3 :
    shows (exec .hamDecblk (onBin0 (bits 7 0b0100010))) (fun t => (t.bout0, t.epos, t.status)) =
      some (some (bits 4 0b0110), some [3], 0) := by decide

theorem test_hamDecblk_eight_bits :
    shows (exec .hamDecblk (onBin0 (bits 8 0b01000101))) (fun t => (t.bout0, t.epos, t.status)) = some (none, none, 1) := by
  decide

theorem test_hamDec_three_blocks :
    shows (exec .hamDec (onBin0 (bits 21 0b000011110001001111111))) (fun t => (t.bout0, t.epos, t.status)) =
      some (some (bits 12 0b010010001111), some [2, 0, 0], 0) := by decide

theorem test_hamDec_empty :
    shows (exec .hamDec (onBin0 [])) (fun t => (t.bout0, t.epos, t.status)) = some (some [], some [], 0) := by decide

theorem test_bpPack_drops_the_tail :
    shows (exec .bpPack (onBin0 (bits 10 0b0100000101))) (fun t => (t.sout, t.status)) = some (some [65], 0) := by decide

theorem test_bpPack_two_symbols :
    shows (exec .bpPack (onBin0 (bits 16 0b0000000011111111))) (fun t => t.sout) = some (some [0, 255]) := by decide

theorem test_bpUnpack_five_symbols :
    shows (exec .bpUnpack (onSin (syms [0, 255, 128, 1, 165]))) (fun t => t.bout0) =
      some (some (bits 40 0b0000000011111111100000000000000110100101)) := by decide

theorem test_bpUnpack_empty : shows (exec .bpUnpack (onSin [])) (fun t => (t.bout0, t.status)) = some (some [], 0) := by decide

theorem test_scEnc_draws_the_token :
    shows (exec .scEnc { onBin0 (bits 4 0b1100) with source := bits 5 0b10101 })
        (fun t => (t.bout0, t.bout1, t.source, t.drawn)) =
      some (some (bits 4 0b0110), some (bits 4 0b1010), [true], 4) := by decide

theorem test_scEnc_empty : shows (exec .scEnc (onBin0 [])) (fun t => (t.bout0, t.bout1)) = some (some [], some []) := by decide

theorem test_scDec_xors :
    shows (exec .scDec ((onBin0 (bits 4 0b0110)).setBin1 (bits 4 0b1010))) (fun t => (t.bout0, t.bout1, t.status)) =
      some (some (bits 4 0b1100), none, 0) := by decide

theorem test_scDec_unequal :
    shows (exec .scDec ((onBin0 (bits 4 0b0110)).setBin1 (bits 3 0b101))) (fun t => (t.bout0, t.status)) = some (none, 2) := by
  decide

theorem test_hufFreq_counts :
    shows (exec .hufFreq (onSin (syms [0, 0, 0, 1]))) (fun t => t.ft.map fun c => (countOf c 0, countOf c 1, countOf c 255)) =
      some (some (3, 1, 0)) := by
  change some (some (countOf (countSymbols _) 0, countOf (countSymbols _) 1, countOf (countSymbols _) 255)) = _
  simp only [countOf_countSymbols]
  decide

theorem test_hufFreq_empty :
    shows (exec .hufFreq (onSin [])) (fun t => (t.ft.map fun c => (countOf c 0, countOf c 255), t.status)) = some (some (0, 0), 0) := by
  change some (some (countOf (countSymbols _) 0, countOf (countSymbols _) 255), _) = _
  simp only [countOf_countSymbols]
  decide

theorem test_hufTree_abracadabra :
    shows (exec .hufTree (onFt [97, 98, 114, 97, 99, 97, 100, 97, 98, 114, 97])) (fun t => t.tree) =
      some (some rowSevenTree) := by
  rw [exec_hufTree_onFt, buildTree, leafCandidates_countSymbols]
  decide +kernel

theorem test_hufTree_leaf_before_internal :
    shows (exec .hufTree (onFt [0, 1, 2, 2])) (fun t => t.tree) =
      some (some (.internal 4 (.internal 2 (.leaf 1 1) (.leaf 0 1)) (.leaf 2 2))) := by
  rw [exec_hufTree_onFt, buildTree, leafCandidates_countSymbols]
  decide +kernel

theorem test_hufCodes_abracadabra :
    shows (exec .hufCodes (onTree rowSevenTree)) (fun t => t.ct.map fun c => [97, 98, 99, 100, 114, 96].map (codeOf c)) =
      some (some [some (bits 1 0b1), some (bits 3 0b001), some (bits 3 0b011), some (bits 3 0b010), some (bits 3 0b000), none]) := by
  decide +kernel

theorem test_hufCodes_single_leaf :
    shows (exec .hufCodes (onTree (.leaf 65 3))) (fun t => t.ct.map fun c => (codeOf c 65, codeOf c 66)) =
      some (some (some [false], none)) := by decide +kernel

theorem test_hufEnc_concatenates :
    shows (exec .hufEnc ((onSin (syms [1, 0])).setCt rowOneCodes)) (fun t => (t.bout0, t.status)) =
      some (some (bits 2 0b10), 0) := by decide +kernel

theorem test_hufEnc_unknown_symbol :
    shows (exec .hufEnc ((onSin (syms [0, 2])).setCt rowOneCodes)) (fun t => (t.bout0, t.status)) = some (none, 3) := by
  decide +kernel

theorem test_hufDec_abracadabra :
    shows (exec .hufDec ((onBin0 (bits 23 0b10010001011101010010001)).setTree rowSevenTree)) (fun t => (t.sout, t.status)) =
      some (some (syms [97, 98, 114, 97, 99, 97, 100, 97, 98, 114, 97]), 0) := by decide

theorem test_hufDec_truncated :
    shows (exec .hufDec ((onBin0 (bits 3 0b100)).setTree rowSevenTree)) (fun t => (t.sout, t.status)) = some (none, 4) := by
  decide

/-- V-HUF, errors and corner cases: a 1 bit with a single Leaf. -/
theorem test_invalid_code :
    shows (exec .hufDec ((onBin0 (bits 3 0b010)).setTree (.leaf 65 3))) (fun t => (t.sout, t.status)) = some (none, 6) := by decide

/-- V-HUF, errors and corner cases: a table of zeros. -/
theorem test_empty_alphabet : shows (exec .hufTree (onFt [])) (fun t => (t.tree, t.status)) = some (none, 5) := by
  rw [exec_hufTree_onFt, buildTree, leafCandidates_countSymbols]
  decide +kernel

/-- V-HUF, errors and corner cases: a reserved code changes nothing but STATUS. -/
theorem test_reserved_code :
    shows (step { onBin0 [true] with program := [.wrCmd 0xF] }) (fun t => (t.bin0, t.bout0, t.status)) =
      some (some [true], none, 7) := by decide

/-- U1: an operation whose source holds no value is refused, not given a default. -/
theorem test_no_source_value : reason (step (State.reset.withFetchWord 4 0x3)) = some (.sourceHoldsNoValue .bin0) := by decide

/-- A word placed for the next step is what that step runs. -/
theorem test_placed_word_runs : shows (step ((onBin0 []).withFetchWord 4 0x3)) (fun t => (t.sout, t.program)) = some (some [], []) := by
  decide

/-- P1, its `MOV BIN0, BOUT0`: the read, then the write. -/
theorem test_move :
    shows (step ((asked [.movBits .bin0 .bout0]).setBout0 [true])) (fun t => (t.program, t.reads)) =
      some ([.wrBin0 [true]], [(.bout0, .bits [true])]) := by decide

/-! ### Witnesses for the hypotheses of the statements -/

theorem witness_DecodingUndoesEncoding : ∃ (c : Command) (i : Instr), decode c = .ok i := ⟨0xB, .hufDec, rfl⟩

theorem witness_CmdWriteRunsTheDecodedOperation :
    ∃ (s : State) (c : Command) (i : Instr) (rest : List HostAction),
      s.busy = false ∧ s.program = .wrCmd c :: rest ∧ decode c = .ok i :=
  ⟨asked [.wrCmd 0x1, .rd .status], 0x1, .hamDecblk, [.rd .status], rfl, rfl, rfl⟩

theorem witness_ReservedCommandOnlySetsStatus :
    (∃ (s : State) (c : Command) (rest : List HostAction),
      s.busy = false ∧ s.program = .wrCmd c :: rest ∧ (c = 0x0 ∨ c = 0xC ∨ c = 0xD ∨ c = 0xE ∨ c = 0xF)) ∧
    ∃ c : Command, ¬(c = 0x0 ∨ c = 0xC ∨ c = 0xD ∨ c = 0xE ∨ c = 0xF) :=
  ⟨⟨asked [.wrCmd 0xC], 0xC, [], rfl, rfl, .inr (.inl rfl)⟩, 0xB, by decide⟩

theorem witness_IdleBlockStartsNothing : ∃ s : State, s.program = [] := ⟨onBin0 [true], rfl⟩

theorem witness_ResetActsInEveryState :
    (∃ (s : State) (rest : List HostAction), s.busy = true ∧ s.program = .reset :: rest) ∧
    ∃ s : State, s.program = [.reset] :=
  ⟨⟨{ onBin0 [true] with busy := true, program := [.reset, .rd .busy] }, [.rd .busy], rfl, rfl⟩, asked [.reset], rfl⟩

theorem witness_HamDecblkDecodesOneBlockOrFails :
    (∃ (s : State) (c1 c2 c3 c4 c5 c6 c7 : Bit), s.bin0 = some [c1, c2, c3, c4, c5, c6, c7] ∧ fitsBits s.caps 7 = true) ∧
    (∃ (s : State) (b : Bits), s.bin0 = some b ∧ fitsBits s.caps b.length = true ∧ b.length ≠ 7 ∧ b.length = 6) ∧
    ∃ (s : State) (b : Bits), s.bin0 = some b ∧ fitsBits s.caps b.length = true ∧ b.length ≠ 7 ∧ b.length = 8 :=
  ⟨⟨limited 7 7 3 (onBin0 (bits 7 0b0100010)), false, true, false, false, false, true, false, by decide, by decide⟩,
    ⟨onBin0 (bits 6 0), bits 6 0, rfl, rfl, by decide, by decide⟩, onBin0 (bits 8 0), bits 8 0, rfl, rfl, by decide, by decide⟩

theorem witness_HamDecDecodesWindowByWindow :
    (∃ (s : State) (b : Bits), s.bin0 = some b ∧ fitsBits s.caps b.length = true ∧ b.length % 7 = 0 ∧ b.length = 0) ∧
    (∃ (s : State) (b : Bits) (k : Nat) (c1 c2 c3 c4 c5 c6 c7 : Bit),
      s.bin0 = some b ∧ fitsBits s.caps b.length = true ∧ b.length % 7 = 0 ∧ k < b.length / 7 ∧
        (b.drop (7 * k)).take 7 = [c1, c2, c3, c4, c5, c6, c7]) ∧
    ∃ (s : State) (b : Bits), s.bin0 = some b ∧ fitsBits s.caps b.length = true ∧ b.length % 7 ≠ 0 :=
  ⟨⟨onBin0 [], [], rfl, rfl, rfl, rfl⟩,
    ⟨limited 14 7 3 (onBin0 (bits 14 0b00001111000100)), bits 14 0b00001111000100, 1, true, false, false, false, true, false, false,
      rfl, by decide, by decide, by decide, by decide⟩,
    onBin0 (bits 8 0), bits 8 0, rfl, rfl, by decide⟩

theorem witness_HamDecRecoversDamagedCodewords :
    ∃ (s : State) (blocks : List ((Bit × Bit × Bit × Bit) × Fin 8)),
      s.bin0 = some (blocks.flatMap fun x => flipAt x.2.val (codeword x.1.1 x.1.2.1 x.1.2.2.1 x.1.2.2.2)) ∧
        fitsBits s.caps (7 * blocks.length) = true :=
  ⟨limited 14 7 3 (onBin0 (bits 14 0b00001111000111)), [((false, true, false, false), 2), ((true, false, false, false), 7)],
    by decide, by decide⟩

theorem witness_ErrorPositionsNeverExceedFour :
    ∃ (i : Instr) (s t : State) (p : List ErrorPos), .epos ∈ destinationsOf i ∧ exec i s = .next t ∧ t.epos = some p ∧ p = [4] :=
  ⟨.hamDecblk, onBin0 (bits 7 0b0111010), _, _, by decide, rfl, rfl, by decide⟩

theorem witness_PackMakesSymbolsMostSignificantFirst :
    (∃ (s : State) (b : Bits), s.bin0 = some b ∧ fitsBits s.caps b.length = true ∧ fitsSyms s.caps (b.length / 8) = true ∧
      b.length = 7) ∧
    ∃ (s : State) (b : Bits) (g : Nat), s.bin0 = some b ∧ fitsBits s.caps b.length = true ∧
      fitsSyms s.caps (b.length / 8) = true ∧ g < b.length / 8 ∧ g = 1 :=
  ⟨⟨limited 7 0 1 (onBin0 (bits 7 127)), bits 7 127, rfl, by decide, by decide, by decide⟩,
    limited 16 2 2 (onBin0 (bits 16 255)), bits 16 255, 1, rfl, by decide, by decide, by decide, rfl⟩

theorem witness_UnpackGivesEightBitsASymbol :
    ∃ (s : State) (l : Symbols) (g j : Nat), s.sin = some l ∧ fitsSyms s.caps l.length = true ∧
      fitsBits s.caps (8 * l.length) = true ∧ g < l.length ∧ j < 8 ∧ j = 7 :=
  ⟨limited 8 1 1 (onSin [255]), [255], 0, 7, rfl, by decide, by decide, by decide, by decide, rfl⟩

theorem witness_PackAndUnpackAreInverse : ∃ b : Bits, b.length % 8 = 0 ∧ b.length = 8 := ⟨bits 8 65, by decide, by decide⟩

theorem witness_EncryptionUsesExactlyTheDrawnBits :
    (∃ (s : State) (p k later : Bits) (i : Nat), s.bin0 = some p ∧ fitsBits s.caps p.length = true ∧ k.length = p.length ∧
      s.source = k ++ later ∧ i < p.length) ∧
    ∃ (s : State) (p : Bits), s.bin0 = some p ∧ fitsBits s.caps p.length = true ∧ s.source.length < p.length ∧ s.source ≠ [] :=
  ⟨⟨limited 4 4 3 { onBin0 (bits 4 0b1100) with source := bits 5 0b10100 }, bits 4 0b1100, bits 4 0b1010, [false], 3, rfl, by decide,
    by decide, by decide, by decide⟩, { onBin0 [true, false] with source := [true] }, [true, false], rfl, rfl, by decide, by decide⟩

theorem witness_DecryptionXorsOrFails :
    (∃ (s : State) (c k : Bits), s.bin0 = some c ∧ s.bin1 = some k ∧ fitsBits s.caps c.length = true ∧ c.length = k.length) ∧
    ∃ (s : State) (c k : Bits), s.bin0 = some c ∧ s.bin1 = some k ∧ fitsBits s.caps c.length = true ∧
      fitsBits s.caps k.length = true ∧ c.length ≠ k.length :=
  ⟨⟨limited 1 1 1 ((onBin0 [true]).setBin1 [false]), [true], [false], rfl, rfl, by decide, rfl⟩,
    (onBin0 []).setBin1 [true], [], [true], rfl, rfl, rfl, rfl, by decide⟩

theorem witness_DecryptionInvertsEncryption :
    (∃ p k : Bits, p.length = k.length) ∧
    (∃ s t : State, exec .scEnc s = .next t) ∧
    ∃ (s : State) (p k later : Bits), s.bin0 = some p ∧ s.bin1 = some k ∧ fitsBits s.caps p.length = true ∧
      k.length = p.length ∧ s.source = k ++ later :=
  ⟨⟨[true], [false], rfl⟩, ⟨onBin0 [true], _, rfl⟩,
    { (onBin0 [true]).setBin1 [true] with source := [true, false] }, [true], [true], [false], rfl, rfl, rfl, rfl, rfl⟩

theorem witness_FrequencyTableCountsOccurrences :
    ∃ (s : State) (l : Symbols), s.sin = some l ∧ fitsSyms s.caps l.length = true ∧ fitsCount s.caps l.length = true :=
  ⟨limited 8 1 1 (onSin [255]), [255], rfl, by decide, by decide⟩

theorem witness_SelectionTakesTheLeastNode :
    ∃ (x : Candidate) (rest : List Candidate), ((x :: rest).map Candidate.id).Nodup ∧ rest ≠ [] :=
  ⟨⟨256, rowOneTree⟩, [⟨5, .leaf 5 4⟩], by decide, by decide⟩

theorem witness_OneMergeJoinsTheTwoLeastNodes :
    ∃ (x y a b : Candidate) (ys rest : List Candidate),
      (a :: b :: rest).Perm (x :: y :: ys) ∧
      (∀ c ∈ b :: rest, a.tree.frequency < c.tree.frequency ∨ (a.tree.frequency = c.tree.frequency ∧ a.id < c.id)) ∧
      ∀ c ∈ rest, b.tree.frequency < c.tree.frequency ∨ (b.tree.frequency = c.tree.frequency ∧ b.id < c.id) :=
  ⟨⟨256, rowOneTree⟩, ⟨7, .leaf 7 1⟩, ⟨7, .leaf 7 1⟩, ⟨8, .leaf 8 4⟩, [⟨8, .leaf 8 4⟩], [⟨256, rowOneTree⟩], by decide, by decide,
    by decide⟩

theorem witness_TreeHasOneLeafForEachSymbolPresent :
    ∃ (s : State) (t : FreqTable), s.ft = some t ∧ fitsCounts s.caps t = true ∧ fitsCount s.caps t.toList.sum = true ∧
      ∃ v : Symbol, 0 < countOf t v :=
  ⟨limited 7 7 3 (onFt [0, 1, 0, 0, 0, 0, 0]), countSymbols (syms [0, 1, 0, 0, 0, 0, 0]), rfl, fitsCounts_countSymbols (by decide), by
    rw [countSymbols_sum]
    decide, 0, by
    rw [countOf_countSymbols]
    decide⟩

theorem witness_TwoSymbolTreePutsTheRarerRight :
    ∃ (s : State) (t : FreqTable) (v w : Symbol), s.ft = some t ∧ fitsCounts s.caps t = true ∧
      fitsCount s.caps (countOf t v + countOf t w) = true ∧ 0 < countOf t v ∧ v ≠ w ∧
      (countOf t v < countOf t w ∨ (countOf t v = countOf t w ∧ v.toNat < w.toNat)) ∧
      ∀ u : Symbol, u ≠ v → u ≠ w → countOf t u = 0 :=
  ⟨limited 3 3 2 (onFt [5, 3]), countSymbols (syms [5, 3]), 3, 5, rfl, fitsCounts_countSymbols (by decide), by
    simp only [countOf_countSymbols]
    decide, by
    rw [countOf_countSymbols]
    decide, by decide, by
    simp only [countOf_countSymbols]
    decide, by
    simp only [countOf_countSymbols]
    decide +kernel⟩

theorem witness_SingleSymbolTreeIsALeaf :
    ∃ (s : State) (t : FreqTable) (v : Symbol), s.ft = some t ∧ fitsCounts s.caps t = true ∧ 0 < countOf t v ∧
      ∀ u : Symbol, u ≠ v → countOf t u = 0 :=
  ⟨limited 3 3 2 (onFt [255, 255, 255]), countSymbols (syms [255, 255, 255]), 255, rfl, fitsCounts_countSymbols (by decide), by
    rw [countOf_countSymbols]
    decide, by
    simp only [countOf_countSymbols]
    decide +kernel⟩

theorem witness_EmptyAlphabetIsAnError :
    ∃ (s : State) (t : FreqTable), s.ft = some t ∧ fitsCounts s.caps t = true ∧ ∀ v : Symbol, countOf t v = 0 :=
  ⟨limited 3 3 2 (onFt []), countSymbols (syms []), rfl, fitsCounts_countSymbols (by decide), by
    simp only [countOf_countSymbols]
    decide +kernel⟩

theorem witness_CodesAreThePathsToTheLeaves :
    (∃ (s : State) (f : Nat) (l r : HuffmanNode), s.tree = some (.internal f l r) ∧ (HuffmanNode.internal f l r).symbols.Nodup) ∧
    ∃ (s : State) (f : Nat) (v w : Symbol), s.tree = some (.leaf v f) ∧ w ≠ v :=
  ⟨⟨onTree rowOneTree, 4, .leaf 0 3, .leaf 1 1, rfl, by decide⟩, onTree (.leaf 255 3), 3, 255, 0, rfl, by decide⟩

theorem witness_BuiltCodesFormAPrefixCode :
    ∃ (t : FreqTable) (n : HuffmanNode) (v w : Symbol) (c d : Bits), buildTree t = .ok n ∧ 2 ≤ (nonzeroSymbols t).length ∧
      v ≠ w ∧ codeOf (assignCodes n) v = some c ∧ codeOf (assignCodes n) w = some d :=
  ⟨countSymbols (syms [5, 3]), .internal 2 (.leaf 5 1) (.leaf 3 1), 3, 5, [true], [false], by
    rw [buildTree, leafCandidates_countSymbols]
    decide +kernel, by
    simp only [nonzeroSymbols, countOf_countSymbols]
    decide +kernel, by decide, by decide +kernel, by decide +kernel⟩

theorem witness_EncodingConcatenatesCodesOrFails :
    (∃ (s : State) (l : Symbols) (t : CodeTable), s.sin = some l ∧ s.ct = some t ∧ fitsSyms s.caps l.length = true ∧
      (∀ v ∈ l, (codeOf t v).isSome = true) ∧ fitsBits s.caps (l.flatMap fun v => (codeOf t v).getD []).length = true) ∧
    ∃ (s : State) (l : Symbols) (t : CodeTable), s.sin = some l ∧ s.ct = some t ∧ fitsSyms s.caps l.length = true ∧
      ∃ v ∈ l, codeOf t v = none :=
  ⟨⟨limited 2 2 2 ((onSin [1, 0]).setCt rowOneCodes), [1, 0], rowOneCodes, rfl, rfl, by decide, by decide +kernel,
    by decide +kernel⟩,
    (onSin [0, 2]).setCt rowOneCodes, [0, 2], rowOneCodes, rfl, rfl, rfl, 2, by decide, by decide +kernel⟩

theorem witness_DecodingWalksToLeavesOrIsTruncated :
    (∃ (s : State) (f : Nat) (l r : HuffmanNode) (paths : List Bits) (out : Symbols),
      s.tree = some (.internal f l r) ∧ s.bin0 = some paths.flatten ∧ fitsBits s.caps paths.flatten.length = true ∧
      List.Forall₂ (fun c v => ∃ g : Nat, (HuffmanNode.internal f l r).follow c = some (.leaf v g)) paths out ∧
      fitsSyms s.caps out.length = true) ∧
    ∃ (s : State) (f : Nat) (l r : HuffmanNode) (b : Bits),
      s.tree = some (.internal f l r) ∧ s.bin0 = some b ∧ fitsBits s.caps b.length = true ∧
      ¬ ∃ (paths : List Bits) (out : Symbols), b = paths.flatten ∧
        List.Forall₂ (fun c v => ∃ g : Nat, (HuffmanNode.internal f l r).follow c = some (.leaf v g)) paths out := by
  refine ⟨⟨limited 2 2 2 ((onTree rowOneTree).setBin0 [true, false]), 4, .leaf 0 3, .leaf 1 1, [[true], [false]], [1, 0], rfl, rfl,
    by decide, .cons ⟨1, rfl⟩ (.cons ⟨3, rfl⟩ .nil), by decide⟩, (onTree (.internal 3 (.leaf 9 1) (.internal 2 (.leaf 8 1)
      (.leaf 7 1)))).setBin0 [true], 3, .leaf 9 1, .internal 2 (.leaf 8 1) (.leaf 7 1), [true], rfl, rfl, rfl, ?_⟩
  rintro ⟨paths, out, hb, hf⟩
  cases hf with
  | nil => simp at hb
  | @cons c v cs vs hc _ =>
    obtain ⟨g, hg⟩ := hc
    match c, hb, hg with
    | [], _, hg => simp [HuffmanNode.follow] at hg
    | [true], _, hg => simp [HuffmanNode.follow] at hg
    | false :: _, hb, _ => simp at hb
    | true :: _ :: _, hb, _ => simp at hb

theorem witness_SingleLeafDecodingAcceptsOnlyZeros :
    (∃ (s : State) (v : Symbol) (f n : Nat), s.tree = some (.leaf v f) ∧ s.bin0 = some (List.replicate n false) ∧
      fitsBits s.caps n = true ∧ fitsSyms s.caps n = true) ∧
    ∃ (s : State) (v : Symbol) (f : Nat) (b : Bits), s.tree = some (.leaf v f) ∧ s.bin0 = some b ∧
      fitsBits s.caps b.length = true ∧ true ∈ b :=
  ⟨⟨limited 3 3 2 ((onTree (.leaf 65 3)).setBin0 [false, false, false]), 65, 3, 3, rfl, rfl, by decide, by decide⟩,
    (onTree (.leaf 65 3)).setBin0 [false, true, false], 65, 3, [false, true, false], rfl, rfl, rfl, by decide⟩

theorem witness_AppendedStreamsDecodeInTurn :
    ∃ (n : HuffmanNode) (b : Bits) (l : Symbols), decodeBits n b = .ok l ∧ l ≠ [] := ⟨rowOneTree, [true], [1], rfl, by decide⟩

theorem witness_HuffmanRoundTrip :
    ∃ (s : State) (l : Symbols), l ≠ [] ∧ s.sin = some l ∧ s.caps = Capacities.unbounded := ⟨onSin [65], [65], by decide, rfl, rfl⟩

theorem witness_OperationsChangeOnlyTheirDestinations :
    ∃ (i : Instr) (s t : State) (e d : Element), exec i s = .next t ∧ e ∉ destinationsOf i ∧ d ∈ sourcesOf i ∧ i ≠ .scEnc :=
  ⟨.bpPack, onBin0 [], _, .ct, .bin0, rfl, by decide, by decide, by decide⟩

theorem witness_OperationsEndInSuccessOrAListedError : ∃ (i : Instr) (s t : State), exec i s = .next t :=
  ⟨.hamDec, onBin0 [true], _, rfl⟩

theorem witness_OperationsRunWhenTheirSourcesHoldValues :
    ∃ (i : Instr) (s : State), s.caps = Capacities.unbounded ∧ ∀ e ∈ sourcesOf i, s.holds e = true :=
  ⟨.scDec, (onBin0 []).setBin1 [true], rfl, by decide⟩

theorem witness_MissingSourceIsRefused :
    (∃ (i : Instr) (s : State), ∃ e ∈ sourcesOf i, s.holds e = false) ∧
    ∃ (i : Instr) (s : State) (e : Element), exec i s = .refused (.sourceHoldsNoValue e) :=
  ⟨⟨.hufDec, onBin0 [], .tree, by decide, rfl⟩, .hufDec, onBin0 [], .tree, rfl⟩

theorem witness_OverCapacityIsRefused_operands :
    (∃ (i : Instr) (s : State) (b : Bits), .bin0 ∈ sourcesOf i ∧ s.bin0 = some b ∧ fitsBits s.caps b.length = false) ∧
    (∃ (i : Instr) (s : State) (l : Symbols), .sin ∈ sourcesOf i ∧ s.sin = some l ∧ fitsSyms s.caps l.length = false) ∧
    (∃ (s : State) (c k : Bits), s.bin0 = some c ∧ fitsBits s.caps c.length = true ∧ s.bin1 = some k ∧
      fitsBits s.caps k.length = false) ∧
    ∃ (s : State) (t : FreqTable), s.ft = some t ∧ fitsCounts s.caps t = false :=
  ⟨⟨.scEnc, limited 1 1 1 (onBin0 [true, true]), [true, true], by decide, rfl, by decide⟩,
    ⟨.hufEnc, limited 1 1 1 (onSin [0, 0]), [0, 0], by decide, rfl, by decide⟩,
    ⟨limited 1 1 1 ((onBin0 [true]).setBin1 [true, true]), [true], [true, true], rfl, by decide, rfl, by decide⟩,
    limited 1 1 1 (onFt [0, 0]), countSymbols (syms [0, 0]), rfl, overCounts_countSymbols 0 (by decide)⟩

theorem witness_OverCapacityIsRefused_results :
    (∃ (s : State) (b : Bits), s.bin0 = some b ∧ fitsBits s.caps b.length = true ∧ fitsSyms s.caps (b.length / 8) = false) ∧
    (∃ (s : State) (l : Symbols), s.sin = some l ∧ fitsSyms s.caps l.length = true ∧ fitsBits s.caps (8 * l.length) = false) ∧
    (∃ (s : State) (l : Symbols), s.sin = some l ∧ fitsSyms s.caps l.length = true ∧ fitsCount s.caps l.length = false) ∧
    (∃ (s : State) (t : FreqTable), s.ft = some t ∧ fitsCounts s.caps t = true ∧ fitsCount s.caps t.toList.sum = false ∧
      ∃ v : Symbol, 0 < countOf t v) ∧
    (∃ (s : State) (l : Symbols) (t : CodeTable), s.sin = some l ∧ s.ct = some t ∧ fitsSyms s.caps l.length = true ∧
      (∀ v ∈ l, (codeOf t v).isSome = true) ∧ fitsBits s.caps (l.flatMap fun v => (codeOf t v).getD []).length = false) ∧
    ∃ (s : State) (b : Bits) (n : HuffmanNode) (out : Symbols), s.bin0 = some b ∧ fitsBits s.caps b.length = true ∧
      s.tree = some n ∧ decodeBits n b = .ok out ∧ fitsSyms s.caps out.length = false :=
  ⟨⟨limited 8 0 1 (onBin0 (bits 8 0)), bits 8 0, rfl, by decide, by decide⟩,
    ⟨limited 7 1 1 (onSin [0]), [0], rfl, by decide, by decide⟩,
    ⟨limited 7 2 1 (onSin [0, 0]), [0, 0], rfl, by decide, by decide⟩,
    ⟨limited 7 2 1 (onFt [0, 1]), countSymbols (syms [0, 1]), rfl, by
      rw [fitsCounts_iff]
      simp only [countOf_countSymbols]
      decide +kernel, by
      rw [countSymbols_sum]
      decide, 0, by
      rw [countOf_countSymbols]
      decide⟩,
    ⟨limited 1 2 2 ((onSin [0, 1]).setCt rowOneCodes), [0, 1], rowOneCodes, rfl, rfl, by decide, by decide +kernel,
      by decide +kernel⟩,
    limited 1 0 1 ((onBin0 [true]).setTree rowOneTree), [true], rowOneTree, [1], rfl, by decide, rfl, rfl, by decide⟩

theorem witness_ResultsDependOnlyOnSources :
    ∃ (i : Instr) (s t : State), s.caps = t.caps ∧ (∀ e ∈ sourcesOf i, s.sameAt t e) ∧
      (i = .scEnc → ∀ b : Bits, s.bin0 = some b → s.draws b.length = t.draws b.length) ∧ s.source ≠ t.source :=
  ⟨.scEnc, { onBin0 [true] with source := [true, false] }, { onBin0 [true] with source := [true, true] }, rfl, by
    simp [sourcesOf, State.sameAt, onBin0, State.setBin0], by
    rintro - b hb
    obtain rfl : [true] = b := Option.some.inj hb
    decide, by decide⟩

theorem witness_FailedOperationsFailAgain : ∃ (i : Instr) (s t : State), exec i s = .next t ∧ t.status ≠ 0 :=
  ⟨.hamDec, onBin0 [true], _, rfl, by decide⟩

theorem reset_legal : State.reset.Legal where
  idle := rfl
  port := rfl
  positions := by intro _ h; cases h
  tree := by intro _ h; cases h
  codes := by intro _ h; cases h

theorem reset_withinCapacity : State.reset.WithinCapacity where
  consistent := trivial
  bin0 := by intro _ h; cases h
  bin1 := by intro _ h; cases h
  sin := by intro _ h; cases h
  bout0 := by intro _ h; cases h
  bout1 := by intro _ h; cases h
  sout := by intro _ h; cases h
  ft := by intro _ h; cases h

theorem witness_StepsKeepStatesLegal : ∃ s t : State, s.Legal ∧ step s = .next t := ⟨State.reset, _, reset_legal, rfl⟩

theorem witness_StepsKeepCapacities : ∃ s t : State, s.WithinCapacity ∧ step s = .next t :=
  ⟨State.reset, _, reset_withinCapacity, rfl⟩

theorem witness_HostWriteReplacesTheElement :
    (∃ (s : State) (b : Bits) (rest : List HostAction), s.busy = false ∧ s.program = .wrBin0 b :: rest ∧
      fitsBits s.caps b.length = true) ∧
    (∃ (s : State) (b : Bits) (rest : List HostAction), s.busy = false ∧ s.program = .wrBin1 b :: rest ∧
      fitsBits s.caps b.length = true) ∧
    (∃ (s : State) (l : Symbols) (rest : List HostAction), s.busy = false ∧ s.program = .wrSin l :: rest ∧
      fitsSyms s.caps l.length = true) ∧
    (∃ (s : State) (t : FreqTable) (rest : List HostAction), s.busy = false ∧ s.program = .wrFt t :: rest ∧
      fitsCounts s.caps t = true) ∧
    (∃ (s : State) (t : HuffmanNode) (rest : List HostAction), s.busy = false ∧ s.program = .wrTree t :: rest ∧
      t.symbols.Nodup) ∧
    ∃ (s : State) (t : CodeTable) (rest : List HostAction), s.busy = false ∧ s.program = .wrCt t :: rest ∧
      ∀ (v : Symbol) (c : Bits), codeOf t v = some c → 1 ≤ c.length ∧ c.length ≤ 255 :=
  ⟨⟨limited 1 1 1 (asked [.wrBin0 [true]]), [true], [], rfl, rfl, by decide⟩,
    ⟨limited 1 1 1 (asked [.wrBin1 [true]]), [true], [], rfl, rfl, by decide⟩,
    ⟨limited 1 1 1 (asked [.wrSin [0]]), [0], [], rfl, rfl, by decide⟩,
    ⟨limited 1 1 1 (asked [.wrFt (countSymbols [0])]), countSymbols [0], [], rfl, rfl, fitsCounts_countSymbols (by decide)⟩,
    ⟨asked [.wrTree rowOneTree], rowOneTree, [], rfl, rfl, by decide⟩,
    asked [.wrCt noCodes], noCodes, [], rfl, rfl, fun v c h => by simp [codeOf, noCodes] at h⟩

theorem witness_IllegalHostWriteIsRefused :
    (∃ (s : State) (t : HuffmanNode) (rest : List HostAction), s.busy = false ∧ s.program = .wrTree t :: rest ∧
      ¬ t.symbols.Nodup) ∧
    (∃ (s : State) (t : CodeTable) (rest : List HostAction) (v : Symbol) (c : Bits), s.busy = false ∧
      s.program = .wrCt t :: rest ∧ codeOf t v = some c ∧ c = []) ∧
    (∃ (s : State) (t : CodeTable) (rest : List HostAction) (v : Symbol) (c : Bits), s.busy = false ∧
      s.program = .wrCt t :: rest ∧ codeOf t v = some c ∧ 255 < c.length ∧ c.length = 256) ∧
    (∃ (s : State) (b : Bits) (rest : List HostAction), s.busy = false ∧ s.program = .wrBin0 b :: rest ∧
      fitsBits s.caps b.length = false) ∧
    (∃ (s : State) (b : Bits) (rest : List HostAction), s.busy = false ∧ s.program = .wrBin1 b :: rest ∧
      fitsBits s.caps b.length = false) ∧
    (∃ (s : State) (t : FreqTable) (rest : List HostAction), s.busy = false ∧ s.program = .wrFt t :: rest ∧
      fitsCounts s.caps t = false) ∧
    ∃ (s : State) (l : Symbols) (rest : List HostAction), s.busy = false ∧ s.program = .wrSin l :: rest ∧
      fitsSyms s.caps l.length = false :=
  ⟨⟨asked [.wrTree (.internal 2 (.leaf 0 1) (.leaf 0 1))], .internal 2 (.leaf 0 1) (.leaf 0 1), [], rfl, rfl, by decide⟩,
    ⟨asked [.wrCt (recordCode noCodes 0 [])], recordCode noCodes 0 [], [], 0, [], rfl, rfl, by decide +kernel, rfl⟩,
    ⟨asked [.wrCt (recordCode noCodes 0 (List.replicate 256 true))], recordCode noCodes 0 (List.replicate 256 true), [], 0,
      List.replicate 256 true, rfl, rfl, by decide +kernel, by decide +kernel, by decide +kernel⟩,
    ⟨limited 1 1 1 (asked [.wrBin0 [true, true]]), [true, true], [], rfl, rfl, by decide⟩,
    ⟨limited 1 1 1 (asked [.wrBin1 [true, true]]), [true, true], [], rfl, rfl, by decide⟩,
    ⟨limited 1 1 1 (asked [.wrFt (countSymbols [0, 0])]), countSymbols [0, 0], [], rfl, rfl,
      overCounts_countSymbols 0 (by decide)⟩,
    limited 1 1 1 (asked [.wrSin [0, 0]]), [0, 0], [], rfl, rfl, by decide⟩

theorem witness_HostReadDeliversTheValue_bits :
    (∃ (s : State) (b : Bits) (rest : List HostAction), s.busy = false ∧ s.program = .rd .bout0 :: rest ∧ s.bout0 = some b) ∧
    (∃ (s : State) (b : Bits) (rest : List HostAction), s.busy = false ∧ s.program = .rd .bout1 :: rest ∧ s.bout1 = some b) ∧
    (∃ (s : State) (l : Symbols) (rest : List HostAction), s.busy = false ∧ s.program = .rd .sout :: rest ∧ s.sout = some l) ∧
    ∃ (s : State) (p : List ErrorPos) (rest : List HostAction), s.busy = false ∧ s.program = .rd .epos :: rest ∧
      s.epos = some p :=
  ⟨⟨(asked [.rd .bout0]).setBout0 [true], [true], [], rfl, rfl, rfl⟩, ⟨(asked [.rd .bout1]).setBout1 [], [], [], rfl, rfl, rfl⟩,
    ⟨(asked [.rd .sout]).setSout [0], [0], [], rfl, rfl, rfl⟩, (asked [.rd .epos]).setEpos [4], [4], [], rfl, rfl, rfl⟩

theorem witness_HostReadDeliversTheValue_noValue :
    (∃ (s : State) (rest : List HostAction), s.busy = false ∧ s.program = .rd .bout0 :: rest ∧ s.holds .bout0 = false) ∧
    (∃ (s : State) (rest : List HostAction), s.busy = false ∧ s.program = .rd .bout1 :: rest ∧ s.holds .bout1 = false) ∧
    (∃ (s : State) (rest : List HostAction), s.busy = false ∧ s.program = .rd .sout :: rest ∧ s.holds .sout = false) ∧
    (∃ (s : State) (rest : List HostAction), s.busy = false ∧ s.program = .rd .epos :: rest ∧ s.holds .epos = false) ∧
    (∃ (s : State) (rest : List HostAction), s.busy = false ∧ s.program = .rd .ft :: rest ∧ s.holds .ft = false) ∧
    (∃ (s : State) (rest : List HostAction), s.busy = false ∧ s.program = .rd .ftOrder :: rest ∧ s.holds .ft = false) ∧
    (∃ (s : State) (rest : List HostAction), s.busy = false ∧ s.program = .rd .tree :: rest ∧ s.holds .tree = false) ∧
    ∃ (s : State) (rest : List HostAction), s.busy = false ∧ s.program = .rd .ct :: rest ∧ s.holds .ct = false :=
  ⟨⟨(asked [.rd .bout0]).setBout1 [true], [], rfl, rfl, rfl⟩, ⟨asked [.rd .bout1], [], rfl, rfl, rfl⟩,
    ⟨asked [.rd .sout], [], rfl, rfl, rfl⟩, ⟨asked [.rd .epos], [], rfl, rfl, rfl⟩, ⟨asked [.rd .ft], [], rfl, rfl, rfl⟩,
    ⟨asked [.rd .ftOrder], [], rfl, rfl, rfl⟩, ⟨asked [.rd .tree], [], rfl, rfl, rfl⟩, asked [.rd .ct], [], rfl, rfl, rfl⟩

theorem witness_HostReadDeliversTheValue_tables :
    (∃ (s : State) (t : FreqTable) (rest : List HostAction), s.busy = false ∧ s.program = .rd .ft :: rest ∧ s.ft = some t) ∧
    (∃ (s : State) (t : FreqTable) (rest : List HostAction), s.busy = false ∧ s.program = .rd .ftOrder :: rest ∧
      s.ft = some t) ∧
    (∃ (s : State) (t : HuffmanNode) (rest : List HostAction), s.busy = false ∧ s.program = .rd .tree :: rest ∧
      s.tree = some t) ∧
    (∃ (s : State) (t : CodeTable) (rest : List HostAction), s.busy = false ∧ s.program = .rd .ct :: rest ∧ s.ct = some t) ∧
    (∃ (s : State) (rest : List HostAction), s.busy = false ∧ s.program = .rd .status :: rest) ∧
    (∃ (s : State) (rest : List HostAction), s.busy = false ∧ s.program = .rd .busy :: rest) ∧
    (∃ (s : State) (e : Element) (rest : List HostAction), s.busy = false ∧ s.program = .rd (.mark e) :: rest) ∧
    ∃ (s : State) (r : Readable) (rest : List HostAction), s.busy = false ∧ s.program = .rd r :: rest :=
  ⟨⟨(asked [.rd .ft]).setFt (countSymbols []), countSymbols [], [], rfl, rfl, rfl⟩,
    ⟨(asked [.rd .ftOrder]).setFt (countSymbols []), countSymbols [], [], rfl, rfl, rfl⟩,
    ⟨(asked [.rd .tree]).setTree rowOneTree, rowOneTree, [], rfl, rfl, rfl⟩,
    ⟨(asked [.rd .ct]).setCt noCodes, noCodes, [], rfl, rfl, rfl⟩, ⟨asked [.rd .status], [], rfl, rfl⟩,
    ⟨asked [.rd .busy], [], rfl, rfl⟩, ⟨asked [.rd (.mark .ct)], .ct, [], rfl, rfl⟩, asked [.rd .bout0], .bout0, [], rfl, rfl⟩

theorem witness_MoveReadsThenWrites :
    (∃ (s : State) (b : Bits) (rest : List HostAction), s.busy = false ∧ s.program = .movBits .bin0 .bout0 :: rest ∧
      s.bout0 = some b) ∧
    (∃ (s : State) (b : Bits) (rest : List HostAction), s.busy = false ∧ s.program = .movBits .bin0 .bout1 :: rest ∧
      s.bout1 = some b) ∧
    (∃ (s : State) (b : Bits) (rest : List HostAction), s.busy = false ∧ s.program = .movBits .bin1 .bout0 :: rest ∧
      s.bout0 = some b) ∧
    (∃ (s : State) (b : Bits) (rest : List HostAction), s.busy = false ∧ s.program = .movBits .bin1 .bout1 :: rest ∧
      s.bout1 = some b) ∧
    (∃ (s : State) (dst : BitOperand) (rest : List HostAction), s.busy = false ∧ s.program = .movBits dst .bout0 :: rest ∧
      s.bout0 = none) ∧
    (∃ (s : State) (dst : BitOperand) (rest : List HostAction), s.busy = false ∧ s.program = .movBits dst .bout1 :: rest ∧
      s.bout1 = none) ∧
    (∃ (s : State) (l : Symbols) (rest : List HostAction), s.busy = false ∧ s.program = .movSyms :: rest ∧ s.sout = some l) ∧
    ∃ (s : State) (rest : List HostAction), s.busy = false ∧ s.program = .movSyms :: rest ∧ s.sout = none :=
  ⟨⟨(asked [.movBits .bin0 .bout0]).setBout0 [], [], [], rfl, rfl, rfl⟩,
    ⟨(asked [.movBits .bin0 .bout1]).setBout1 [], [], [], rfl, rfl, rfl⟩,
    ⟨(asked [.movBits .bin1 .bout0]).setBout0 [], [], [], rfl, rfl, rfl⟩,
    ⟨(asked [.movBits .bin1 .bout1]).setBout1 [], [], [], rfl, rfl, rfl⟩,
    ⟨asked [.movBits .bin0 .bout0], .bin0, [], rfl, rfl, rfl⟩, ⟨asked [.movBits .bin1 .bout1], .bin1, [], rfl, rfl, rfl⟩,
    ⟨(asked [.movSyms]).setSout [], [], [], rfl, rfl, rfl⟩, asked [.movSyms], [], rfl, rfl, rfl⟩

theorem witness_PseudoOperationsStopAtTheFirstFailure :
    (∃ (s : State) (rest : List HostAction), s.busy = false ∧ s.program = .hufBuild :: rest) ∧
    (∃ (s : State) (rest : List HostAction), s.busy = false ∧ s.program = .hufCompress :: rest) ∧
    (∃ (s : State) (c : Command) (rest : List HostAction), s.busy = false ∧ s.program = .wrCmdIfOk c :: rest ∧ s.status ≠ 0) ∧
    ∃ (s : State) (c : Command) (rest : List HostAction), s.busy = false ∧ s.program = .wrCmdIfOk c :: rest ∧ s.status = 0 :=
  ⟨⟨asked [.hufBuild], [], rfl, rfl⟩, ⟨asked [.hufCompress], [], rfl, rfl⟩,
    ⟨{ asked [.wrCmdIfOk 0x9] with status := 1 }, 0x9, [], rfl, rfl, by decide⟩, asked [.wrCmdIfOk 0x8], 0x8, [], rfl, rfl, rfl⟩

theorem witness_HostActionWhileBusyIsRefused :
    ∃ (s : State) (a : HostAction) (rest : List HostAction), s.busy = true ∧ s.program = a :: rest ∧ a ≠ .reset ∧
      a ≠ .rd .busy ∧ a ≠ .rd .status :=
  ⟨{ asked [.rd .bout0] with busy := true }, .rd .bout0, [], rfl, rfl, by decide, by decide, by decide⟩

theorem witness_ReadingStatusShowsAFailure : ∃ (s : State) (rest : List HostAction), s.program = .rd .status :: rest :=
  ⟨asked [.rd .status], [], rfl⟩

end Sys2Proof.Tests
end

section
/-! Capacities: one rule for each operation on the state, then for each operation of the block and each host action
(spec/00_scope.md R3, spec/10_state.md R11, R12, R19). -/

namespace Sys2Proof.Machine

section
variable {s t : State}

/-! ### The named operations on the state -/

namespace State.WithinCapacity

theorem setBin0 {b : Bits} (hs : s.WithinCapacity) (hfit : fitsBits s.caps b.length = true) :
    (s.setBin0 b).WithinCapacity :=
  { hs with bin0 := fun _ h => Option.some.inj h ▸ hfit }

theorem setBin1 {b : Bits} (hs : s.WithinCapacity) (hfit : fitsBits s.caps b.length = true) :
    (s.setBin1 b).WithinCapacity :=
  { hs with bin1 := fun _ h => Option.some.inj h ▸ hfit }

theorem setSin {l : Symbols} (hs : s.WithinCapacity) (hfit : fitsSyms s.caps l.length = true) :
    (s.setSin l).WithinCapacity :=
  { hs with sin := fun _ h => Option.some.inj h ▸ hfit }

theorem setBout0 {b : Bits} (hs : s.WithinCapacity) (hfit : fitsBits s.caps b.length = true) :
    (s.setBout0 b).WithinCapacity :=
  { hs with bout0 := fun _ h => Option.some.inj h ▸ hfit }

theorem setBout1 {b : Bits} (hs : s.WithinCapacity) (hfit : fitsBits s.caps b.length = true) :
    (s.setBout1 b).WithinCapacity :=
  { hs with bout1 := fun _ h => Option.some.inj h ▸ hfit }

theorem setSout {l : Symbols} (hs : s.WithinCapacity) (hfit : fitsSyms s.caps l.length = true) :
    (s.setSout l).WithinCapacity :=
  { hs with sout := fun _ h => Option.some.inj h ▸ hfit }

theorem setFt {c : FreqTable} (hs : s.WithinCapacity) (hfit : fitsCounts s.caps c = true) :
    (s.setFt c).WithinCapacity :=
  { hs with ft := fun _ h => Option.some.inj h ▸ hfit }

theorem setEpos {p : List ErrorPos} (hs : s.WithinCapacity) : (s.setEpos p).WithinCapacity := { hs with }

theorem setTree {n : HuffmanNode} (hs : s.WithinCapacity) : (s.setTree n).WithinCapacity := { hs with }

theorem setCt {c : CodeTable} (hs : s.WithinCapacity) : (s.setCt c).WithinCapacity := { hs with }

theorem complete (hs : s.WithinCapacity) : s.complete.WithinCapacity := { hs with }

theorem advanceSource {n : Nat} (hs : s.WithinCapacity) : (s.advanceSource n).WithinCapacity := { hs with }

theorem noteRead {r : Readable} {v : ReadValue} (hs : s.WithinCapacity) : (s.noteRead r v).WithinCapacity := { hs with }

theorem thenDo {l : List HostAction} (hs : s.WithinCapacity) : (s.thenDo l).WithinCapacity := { hs with }

/-- An element that loses its value exceeds nothing. -/
theorem invalidate {e : Element} (hs : s.WithinCapacity) : (s.invalidate e).WithinCapacity := by
  cases e with
  | bin0 => exact { hs with bin0 := nofun }
  | bin1 => exact { hs with bin1 := nofun }
  | sin => exact { hs with sin := nofun }
  | bout0 => exact { hs with bout0 := nofun }
  | bout1 => exact { hs with bout1 := nofun }
  | sout => exact { hs with sout := nofun }
  | ft => exact { hs with ft := nofun }
  | epos | tree | ct => exact { hs with }

theorem foldl_invalidate {dests : List Element} (hs : s.WithinCapacity) :
    (dests.foldl (fun s d => s.invalidate d) s).WithinCapacity := by
  induction dests generalizing s with
  | nil => exact hs
  | cons d rest ih => exact ih hs.invalidate

theorem takeError {dests : List Element} {e : OpError} (hs : s.WithinCapacity) : (s.takeError dests e).WithinCapacity :=
  { hs.foldl_invalidate (dests := dests) with }

/-- Reset takes every value away and keeps the capacities (R200, log 4). -/
theorem applyReset (hs : s.WithinCapacity) : (applyReset s).WithinCapacity where
  consistent := hs.consistent
  bin0 := nofun
  bin1 := nofun
  sin := nofun
  bout0 := nofun
  bout1 := nofun
  sout := nofun
  ft := nofun

end State.WithinCapacity

/-! ### The operations of the block -/

/-- The data bits of a stream fit where the stream does: four of every seven (R92). -/
theorem fitsBits_decodeWindows {c : Capacities} {b : Bits} (hfit : fitsBits c b.length = true) :
    fitsBits c (decodeWindows b).1.length = true :=
  fitsBits_mono (by rw [(decodeWindows_length b).1]; omega) hfit

/-- The counts of a stream fit where its length does (R130). -/
theorem countSymbols_fits {c : Capacities} {l : Symbols} (hfit : fitsCount c l.length = true) :
    fitsCounts c (countSymbols l) = true :=
  fitsCounts_iff.2 fun v => fitsCount_mono (by rw [countOf_countSymbols]; exact List.count_le_length) hfit

theorem State.WithinCapacity.putBlocks {b : Bits} (hs : s.WithinCapacity) (hfit : fitsBits s.caps b.length = true) :
    (putBlocks (decodeWindows b) s).WithinCapacity :=
  (hs.setBout0 (fitsBits_decodeWindows hfit)).setEpos

/-- An operation leaves every buffer within its capacity: what its results could exceed it has looked at (R53). -/
theorem exec_withinCapacity {i : Instr} (hs : s.WithinCapacity) (h : exec i s = .next t) : t.WithinCapacity := by
  cases i with
  | hamDecblk =>
    obtain ⟨b, _, hfit, ⟨_, rfl⟩ | ⟨_, rfl⟩⟩ := execHamDecblk_next h
    · exact hs.takeError
    · exact (hs.putBlocks hfit).complete
  | hamDec =>
    obtain ⟨b, _, hfit, ⟨_, rfl⟩ | ⟨_, rfl⟩⟩ := execHamDec_next h
    · exact hs.takeError
    · exact (hs.putBlocks hfit).complete
  | bpPack =>
    obtain ⟨b, _, _, hfit, rfl⟩ := execBpPack_next h
    exact (hs.setSout hfit).complete
  | bpUnpack =>
    obtain ⟨l, _, _, hfit, rfl⟩ := execBpUnpack_next h
    exact (hs.setBout0 hfit).complete
  | scEnc =>
    obtain ⟨b, _, hfit, rfl⟩ := execScEnc_next h
    have hdraws : (s.draws b.length).length = b.length := s.draws_length b.length
    have hcipher : (xorSeq b (s.draws b.length)).length = b.length := xorSeq_length hdraws.symm
    exact ((hs.advanceSource.setBout0 (fitsBits_mono hcipher.le hfit)).setBout1 (fitsBits_mono hdraws.le hfit)).complete
  | scDec =>
    obtain ⟨b, k, _, _, hfit, _, ⟨_, rfl⟩ | ⟨hlen, rfl⟩⟩ := execScDec_next h
    · exact hs.takeError
    · exact (hs.setBout0 (fitsBits_mono (xorSeq_length hlen).le hfit)).complete
  | hufFreq =>
    obtain ⟨l, _, _, hfit, rfl⟩ := execHufFreq_next h
    exact (hs.setFt (countSymbols_fits hfit)).complete
  | hufTree =>
    obtain ⟨c, _, _, ⟨_, rfl⟩ | ⟨n, _, _, rfl⟩⟩ := execHufTree_next h
    · exact hs.takeError
    · exact hs.setTree.complete
  | hufCodes =>
    obtain ⟨n, _, rfl⟩ := execHufCodes_next h
    exact hs.setCt.complete
  | hufEnc =>
    obtain ⟨l, c, _, _, _, ⟨_, rfl⟩ | ⟨b, _, hfit, rfl⟩⟩ := execHufEnc_next h
    · exact hs.takeError
    · exact (hs.setBout0 hfit).complete
  | hufDec =>
    obtain ⟨b, n, _, _, _, ⟨e, _, rfl⟩ | ⟨l, _, hfit, rfl⟩⟩ := execHufDec_next h
    · exact hs.takeError
    · exact (hs.setSout hfit).complete

/-- No operation changes the capacities (R3). -/
theorem exec_caps {i : Instr} (h : exec i s = .next t) : t.caps = s.caps := by
  obtain ⟨e, _, rfl⟩ | ⟨u, rfl, _, _, _, hcaps, _⟩ := exec_next h
  · exact s.takeError_caps _ e
  · exact hcaps

/-! ### The host's actions -/

theorem writeCmd_keepsCapacities {c : Command} (hs : s.WithinCapacity) (h : writeCmd c s = .next t) :
    t.WithinCapacity ∧ t.caps = s.caps := by
  obtain rfl | ⟨i, _, hexec⟩ := writeCmd_next h
  · have hidle : ({ s with cmd := none } : State).WithinCapacity := { hs with }
    exact ⟨hidle.takeError, State.takeError_caps _ _ _⟩
  · have hissued : ({ s with cmd := none, busy := true } : State).WithinCapacity := { hs with }
    have hcaps := exec_caps hexec
    exact ⟨exec_withinCapacity hissued hexec, hcaps⟩

/-- A host write that looks at its value first has found it one of the element and replaced the element (R54). -/
theorem hostWrite_refuseUnless_next {ok : Bool} {r : Refusal} {put : State → State}
    (h : hostWrite (refuseUnless ok r) put s = .next t) : ok = true ∧ t = put s :=
  (hostWrite_next h).imp_left refuseUnless_eq_none.1

theorem performAction_keepsCapacities {a : HostAction} (hs : s.WithinCapacity) (h : performAction a s = .next t) :
    t.WithinCapacity ∧ t.caps = s.caps := by
  cases a with
  | wrBin0 b =>
    obtain ⟨hfit, rfl⟩ := hostWrite_refuseUnless_next h
    exact ⟨hs.setBin0 hfit, rfl⟩
  | wrBin1 b =>
    obtain ⟨hfit, rfl⟩ := hostWrite_refuseUnless_next h
    exact ⟨hs.setBin1 hfit, rfl⟩
  | wrSin l =>
    obtain ⟨hfit, rfl⟩ := hostWrite_refuseUnless_next h
    exact ⟨hs.setSin hfit, rfl⟩
  | wrFt c =>
    obtain ⟨hfit, rfl⟩ := hostWrite_refuseUnless_next h
    exact ⟨hs.setFt hfit, rfl⟩
  | wrTree n =>
    obtain ⟨_, rfl⟩ := hostWrite_refuseUnless_next h
    exact ⟨hs.setTree, rfl⟩
  | wrCt c =>
    obtain ⟨_, rfl⟩ := hostWrite_refuseUnless_next h
    exact ⟨hs.setCt, rfl⟩
  | wrCmd c => exact writeCmd_keepsCapacities hs h
  | wrCmdIfOk c =>
    simp only [performAction] at h
    split at h
    · exact writeCmd_keepsCapacities hs h
    · cases h
      exact ⟨hs, rfl⟩
  | rd r =>
    obtain ⟨v, rfl⟩ := hostRead_next h
    exact ⟨hs.noteRead, rfl⟩
  | movBits dst src =>
    obtain ⟨b, _, rfl⟩ := moveBits_next h
    exact ⟨hs.noteRead.thenDo, rfl⟩
  | movSyms =>
    obtain ⟨l, _, rfl⟩ := moveSyms_next h
    exact ⟨hs.noteRead.thenDo, rfl⟩
  | hufBuild | hufCompress =>
    have hkept := writeCmd_keepsCapacities hs.thenDo h
    exact hkept
  | reset =>
    cases h
    exact ⟨hs.applyReset, rfl⟩

end

/-- Settles O46: a step is idle or performs one host action, and each action keeps the capacities. -/
theorem stepsKeepCapacities : Obligations.StepsKeepCapacities := by
  intro s t hs h
  obtain ⟨_, rfl⟩ | ⟨a, rest, _, _, hact⟩ := step_next h
  · exact ⟨hs, rfl⟩
  · have htaken : ({ s with program := rest } : State).WithinCapacity := { hs with }
    have hkept := performAction_keepsCapacities htaken hact
    exact hkept

end Sys2Proof.Machine
end

section
/-! What every operation keeps and how it ends (spec/10_state.md R32 to R34), from the one lemma on what an operation that ends
can have done. -/

namespace Sys2Proof.Machine

section
variable {s t : State} {i : Instr} {e : Element}

/-- No element is both a source and a destination of one operation (R61). -/
theorem not_mem_destinationsOf_of_mem_sourcesOf (i : Instr) : ∀ e ∈ sourcesOf i, e ∉ destinationsOf i := by
  cases i <;> decide

theorem exec_sameAt (h : exec i s = .next t) (he : e ∉ destinationsOf i) : t.sameAt s e := by
  obtain ⟨err, _, rfl⟩ | ⟨u, rfl, _, hsame, _⟩ := exec_next h
  · exact s.takeError_sameAt _ err he
  · exact State.complete_sameAt (hsame e he)

theorem exec_cmd (h : exec i s = .next t) : t.cmd = s.cmd := by
  obtain ⟨err, _, rfl⟩ | ⟨u, rfl, _, _, hcmd, _⟩ := exec_next h
  · exact s.takeError_cmd _ err
  · exact hcmd

theorem exec_program (h : exec i s = .next t) : t.program = s.program := by
  obtain ⟨err, _, rfl⟩ | ⟨u, rfl, _, _, _, _, hprogram, _⟩ := exec_next h
  · exact s.takeError_program _ err
  · exact hprogram

theorem exec_reads (h : exec i s = .next t) : t.reads = s.reads := by
  obtain ⟨err, _, rfl⟩ | ⟨u, rfl, _, _, _, _, _, hreads, _⟩ := exec_next h
  · exact s.takeError_reads _ err
  · exact hreads

/-- Only SC.ENC draws bits (R27, log 5). -/
theorem exec_randomBits (h : exec i s = .next t) (hi : i ≠ .scEnc) : t.source = s.source ∧ t.drawn = s.drawn := by
  obtain ⟨err, _, rfl⟩ | ⟨u, rfl, _, _, _, _, _, _, hrandom⟩ := exec_next h
  · exact ⟨s.takeError_source _ err, s.takeError_drawn _ err⟩
  · exact hrandom hi

theorem exec_busy (h : exec i s = .next t) : t.busy = false := by
  obtain ⟨err, _, rfl⟩ | ⟨u, rfl, _⟩ := exec_next h
  · exact s.takeError_busy _ err
  · exact u.complete_busy

end

/-- Settles O37: a destination is never a source, and whether an operation ends by an error or with results, it keeps every element
that is no destination. -/
theorem operationsChangeOnlyTheirDestinations : Obligations.OperationsChangeOnlyTheirDestinations := by
  intro i s t h
  refine ⟨fun e he => ?_, fun e he => ?_, exec_cmd h, exec_caps h, exec_program h, exec_reads h, exec_randomBits h⟩
  · have hsame : t.sameAt s e := exec_sameAt h he
    exact ⟨hsame, State.holds_eq_of_sameAt hsame⟩
  · exact exec_sameAt h (not_mem_destinationsOf_of_mem_sourcesOf i e he)

/-- Settles O38: an error leaves no destination a value and its code in STATUS, results leave every destination one and STATUS 0. -/
theorem operationsEndInSuccessOrAListedError : Obligations.OperationsEndInSuccessOrAListedError := by
  intro i s t h
  refine ⟨exec_busy h, ?_⟩
  obtain ⟨err, herr, rfl⟩ | ⟨u, rfl, hholds, _⟩ := exec_next h
  · exact .inr ⟨err, herr, rfl, fun e he => s.takeError_holds _ err he⟩
  · exact .inl ⟨rfl, fun e he => (u.complete_holds e).trans (hholds e he)⟩

end Sys2Proof.Machine
end

section
/-! When an operation is refused (spec/10_state.md R31, spec/20_memory.md R53): the only reasons are a source without a value and
a capacity that is exceeded. One rule for each operand form and one for the end of an operation. -/

namespace Sys2Proof.Machine

/-- `x` is refused, if at all, because one of `sources` holds no value in `s`, or because a capacity is bounded and exceeded. -/
def State.RefusesOnlyFor (s : State) (sources : List Element) (x : Result) : Prop :=
  ∀ r, x = .refused r →
    (∃ e ∈ sources, s.holds e = false ∧ r = .sourceHoldsNoValue e) ∨
      (s.caps ≠ Capacities.unbounded ∧ ∃ e, r = .overCapacity e)

namespace State.RefusesOnlyFor

section
variable {s : State} {sources : List Element}

theorem readSource {α : Type} {e : Element} {content : Option α} {fits : α → Bool} {k : α → Result}
    (hmark : s.holds e = content.isSome) (hunbounded : s.caps = Capacities.unbounded → ∀ a, fits a = true)
    (he : e ∈ sources) (hk : ∀ a, s.RefusesOnlyFor sources (k a)) :
    s.RefusesOnlyFor sources (readSource e content fits k) := by
  intro r h
  obtain ⟨hnone, rfl⟩ | ⟨a, _, hover, rfl⟩ | ⟨a, _, _, hlater⟩ := readSource_refused h
  · exact .inl ⟨e, he, by rw [hmark, hnone]; rfl, rfl⟩
  · exact .inr ⟨fun hcaps => by simp [hunbounded hcaps a] at hover, e, rfl⟩
  · exact hk a r hlater

theorem withBin0 {k : Bits → Result} (he : .bin0 ∈ sources) (hk : ∀ b, s.RefusesOnlyFor sources (k b)) :
    s.RefusesOnlyFor sources (s.withBin0 k) :=
  readSource rfl (fun hcaps b => by rw [hcaps, fitsBits_unbounded]) he hk

theorem withBin1 {k : Bits → Result} (he : .bin1 ∈ sources) (hk : ∀ b, s.RefusesOnlyFor sources (k b)) :
    s.RefusesOnlyFor sources (s.withBin1 k) :=
  readSource rfl (fun hcaps b => by rw [hcaps, fitsBits_unbounded]) he hk

theorem withSin {k : Symbols → Result} (he : .sin ∈ sources) (hk : ∀ l, s.RefusesOnlyFor sources (k l)) :
    s.RefusesOnlyFor sources (s.withSin k) :=
  readSource rfl (fun hcaps l => by rw [hcaps, fitsSyms_unbounded]) he hk

theorem withFt {k : FreqTable → Result} (he : .ft ∈ sources) (hk : ∀ c, s.RefusesOnlyFor sources (k c)) :
    s.RefusesOnlyFor sources (s.withFt k) :=
  readSource rfl (fun hcaps c => by rw [hcaps, fitsCounts_unbounded]) he hk

theorem withTree {k : HuffmanNode → Result} (he : .tree ∈ sources) (hk : ∀ n, s.RefusesOnlyFor sources (k n)) :
    s.RefusesOnlyFor sources (s.withTree k) :=
  readSource rfl (fun _ _ => rfl) he hk

theorem withCt {k : CodeTable → Result} (he : .ct ∈ sources) (hk : ∀ c, s.RefusesOnlyFor sources (k c)) :
    s.RefusesOnlyFor sources (s.withCt k) :=
  readSource rfl (fun _ _ => rfl) he hk

/-- The end of an operation is refused only for a result over its capacity; the state it ends in need not be `s`, since SC.ENC
has advanced the random-bit source. -/
theorem conclude {α : Type} {dests : List Element} {outcome : Except OpError α} {exceeds : α → Option Element}
    {put : α → State → State} {u : State} (hunbounded : s.caps = Capacities.unbounded → ∀ a, exceeds a = none) :
    s.RefusesOnlyFor sources (conclude dests outcome exceeds put u) := by
  intro r h
  obtain ⟨a, d, _, hover, rfl⟩ := conclude_refused h
  exact .inr ⟨fun hcaps => by simp [hunbounded hcaps a] at hover, d, rfl⟩

end

end State.RefusesOnlyFor

section
variable {s t : State} {i : Instr}

/-- An operation is refused only for a source of its own that holds no value or for a capacity (R31, R53). -/
theorem exec_refusesOnlyFor (i : Instr) (s : State) : s.RefusesOnlyFor (sourcesOf i) (exec i s) := by
  cases i with
  | hamDecblk | hamDec => exact .withBin0 (by simp [sourcesOf]) fun b => .conclude fun _ _ => rfl
  | bpPack => exact .withBin0 (by simp [sourcesOf]) fun b => .conclude fun hcaps l => by simp [hcaps]
  | bpUnpack => exact .withSin (by simp [sourcesOf]) fun l => .conclude fun hcaps b => by simp [hcaps]
  | scEnc => exact .withBin0 (by simp [sourcesOf]) fun b => .conclude fun _ _ => rfl
  | scDec =>
    exact .withBin0 (by simp [sourcesOf]) fun b => .withBin1 (by simp [sourcesOf]) fun k => .conclude fun _ _ => rfl
  | hufFreq => exact .withSin (by simp [sourcesOf]) fun l => .conclude fun hcaps c => by simp [hcaps]
  | hufTree => exact .withFt (by simp [sourcesOf]) fun c => .conclude fun hcaps n => by simp [hcaps]
  | hufCodes => exact .withTree (by simp [sourcesOf]) fun n => .conclude fun _ _ => rfl
  | hufEnc =>
    exact .withSin (by simp [sourcesOf]) fun l => .withCt (by simp [sourcesOf]) fun c =>
      .conclude fun hcaps b => by simp [hcaps]
  | hufDec =>
    exact .withBin0 (by simp [sourcesOf]) fun b => .withTree (by simp [sourcesOf]) fun n =>
      .conclude fun hcaps l => by simp [hcaps]

/-- An operation ends in a next state or is refused; nothing faults (log 13). -/
theorem exec_next_or_refused (i : Instr) (s : State) : (∃ t, exec i s = .next t) ∨ ∃ r, exec i s = .refused r := by
  cases h : exec i s with
  | next t => exact .inl ⟨t, rfl⟩
  | fault f => exact nomatch f
  | refused r => exact .inr ⟨r, rfl⟩

/-- An operation that ends has found a value in each of its sources (R31). -/
theorem exec_sources_hold (h : exec i s = .next t) : ∀ e ∈ sourcesOf i, s.holds e = true := by
  cases i with
  | hamDecblk =>
    obtain ⟨b, hb, _⟩ := execHamDecblk_next h
    simp [sourcesOf, State.holds, hb]
  | hamDec =>
    obtain ⟨b, hb, _⟩ := execHamDec_next h
    simp [sourcesOf, State.holds, hb]
  | bpPack =>
    obtain ⟨b, hb, _⟩ := execBpPack_next h
    simp [sourcesOf, State.holds, hb]
  | bpUnpack =>
    obtain ⟨l, hl, _⟩ := execBpUnpack_next h
    simp [sourcesOf, State.holds, hl]
  | scEnc =>
    obtain ⟨b, hb, _⟩ := execScEnc_next h
    simp [sourcesOf, State.holds, hb]
  | scDec =>
    obtain ⟨b, k, hb, hk, _⟩ := execScDec_next h
    simp [sourcesOf, State.holds, hb, hk]
  | hufFreq =>
    obtain ⟨l, hl, _⟩ := execHufFreq_next h
    simp [sourcesOf, State.holds, hl]
  | hufTree =>
    obtain ⟨c, hc, _⟩ := execHufTree_next h
    simp [sourcesOf, State.holds, hc]
  | hufCodes =>
    obtain ⟨n, hn, _⟩ := execHufCodes_next h
    simp [sourcesOf, State.holds, hn]
  | hufEnc =>
    obtain ⟨l, c, hl, hc, _⟩ := execHufEnc_next h
    simp [sourcesOf, State.holds, hl, hc]
  | hufDec =>
    obtain ⟨b, n, hb, hn, _⟩ := execHufDec_next h
    simp [sourcesOf, State.holds, hb, hn]

end

/-- Settles O39: neither reason for a refusal is there. -/
theorem operationsRunWhenTheirSourcesHoldValues : Obligations.OperationsRunWhenTheirSourcesHoldValues := by
  intro i s hcaps hholds
  obtain hnext | ⟨r, hr⟩ := exec_next_or_refused i s
  · exact hnext
  · obtain ⟨e, he, hmissing, _⟩ | ⟨hbounded, _⟩ := exec_refusesOnlyFor i s r hr
    · simp [hholds e he] at hmissing
    · exact absurd hcaps hbounded

/-- Settles O40: an operation that ends has found a value in each source, and no other refusal says that a source holds none. -/
theorem missingSourceIsRefused : Obligations.MissingSourceIsRefused := by
  refine ⟨fun i s ⟨e, he, hmissing⟩ => ?_, fun i s e h => ?_⟩
  · obtain ⟨t, ht⟩ | hrefused := exec_next_or_refused i s
    · simp [exec_sources_hold ht e he] at hmissing
    · exact hrefused
  · obtain ⟨e', he, hmissing, heq⟩ | ⟨_, e', heq⟩ := exec_refusesOnlyFor i s _ h
    · cases heq
      exact ⟨he, hmissing⟩
    · cases heq

end Sys2Proof.Machine
end

section
/-! Legal states: what an operation can leave in EPOS, TREE and CT, and that each host action keeps a state legal
(spec/10_state.md R20 to R23, spec/30_encoding.md R66). -/

namespace Sys2Proof.Machine

section
variable {s t : State} {i : Instr}

/-! ### What an operation leaves in the elements a legal state restricts -/

theorem eq_of_epos_mem_destinationsOf (h : .epos ∈ destinationsOf i) : i = .hamDecblk ∨ i = .hamDec := by
  cases i <;> simp_all [destinationsOf]

theorem eq_of_tree_mem_destinationsOf (h : .tree ∈ destinationsOf i) : i = .hufTree := by
  cases i <;> simp_all [destinationsOf]

theorem eq_of_ct_mem_destinationsOf (h : .ct ∈ destinationsOf i) : i = .hufCodes := by
  cases i <;> simp_all [destinationsOf]

/-- An operation keeps EPOS, invalidates it, or writes the positions of a stream's windows (R91, R92). -/
theorem exec_epos (h : exec i s = .next t) :
    t.epos = s.epos ∨ t.epos = none ∨ ∃ b, t.epos = some (decodeWindows b).2 := by
  by_cases hd : .epos ∈ destinationsOf i
  · obtain rfl | rfl := eq_of_epos_mem_destinationsOf hd
    · obtain ⟨b, _, _, ⟨_, rfl⟩ | ⟨_, rfl⟩⟩ := execHamDecblk_next h
      · exact .inr (.inl rfl)
      · exact .inr (.inr ⟨b, rfl⟩)
    · obtain ⟨b, _, _, ⟨_, rfl⟩ | ⟨_, rfl⟩⟩ := execHamDec_next h
      · exact .inr (.inl rfl)
      · exact .inr (.inr ⟨b, rfl⟩)
  · exact .inl (exec_sameAt h hd)

/-- An operation keeps TREE, invalidates it, or writes a tree built from a table (R139). -/
theorem exec_tree (h : exec i s = .next t) :
    t.tree = s.tree ∨ t.tree = none ∨ ∃ c n, buildTree c = .ok n ∧ t.tree = some n := by
  by_cases hd : .tree ∈ destinationsOf i
  · obtain rfl := eq_of_tree_mem_destinationsOf hd
    obtain ⟨c, _, _, ⟨_, rfl⟩ | ⟨n, hn, _, rfl⟩⟩ := execHufTree_next h
    · exact .inr (.inl rfl)
    · exact .inr (.inr ⟨c, n, hn, rfl⟩)
  · exact .inl (exec_sameAt h hd)

/-- An operation keeps CT or writes the codes of TREE (R142). -/
theorem exec_ct (h : exec i s = .next t) :
    t.ct = s.ct ∨ ∃ n, s.tree = some n ∧ t.ct = some (assignCodes n) := by
  by_cases hd : .ct ∈ destinationsOf i
  · obtain rfl := eq_of_ct_mem_destinationsOf hd
    obtain ⟨n, hn, rfl⟩ := execHufCodes_next h
    exact .inr ⟨n, hn, rfl⟩
  · exact .inl (exec_sameAt h hd)

/-- The leaf symbols of a built tree are pairwise different: they are the symbols of non-zero count, each once (R133). -/
theorem buildTree_symbols_nodup {c : FreqTable} {n : HuffmanNode} (h : buildTree c = .ok n) : n.symbols.Nodup :=
  (buildTree_symbols h).nodup_iff.2 (nonzeroSymbols_nodup c)

/-! ### Legal states -/

/-- The reset state is legal, since no element holds a value (R30). -/
theorem reset_legal : State.reset.Legal where
  idle := rfl
  port := rfl
  positions := nofun
  tree := nofun
  codes := nofun

/-- An operation issued in a legal state ends in a legal state. -/
theorem exec_legal (hs : s.Legal) (h : exec i { s with cmd := none, busy := true } = .next t) : t.Legal where
  idle := exec_busy h
  port := exec_cmd h
  positions p hp := by
    obtain hkept | hnone | ⟨b, hb⟩ := exec_epos h
    · exact hs.positions p (hkept.symm.trans hp)
    · simp [hnone] at hp
    · obtain rfl : (decodeWindows b).2 = p := by simpa [hb] using hp
      exact decodeWindows_positions b
  tree n hn := by
    obtain hkept | hnone | ⟨c, m, hm, ht⟩ := exec_tree h
    · exact hs.tree n (hkept.symm.trans hn)
    · simp [hnone] at hn
    · obtain rfl : m = n := by simpa [ht] using hn
      exact buildTree_symbols_nodup hm
  codes c hc := by
    obtain hkept | ⟨n, hn, ht⟩ := exec_ct h
    · exact hs.codes c (hkept.symm.trans hc)
    · obtain rfl : assignCodes n = c := by simpa [ht] using hc
      exact assignCodes_legal (hs.tree n hn)

theorem State.Legal.thenDo {l : List HostAction} (hs : s.Legal) : (s.thenDo l).Legal := { hs with }

theorem writeCmd_legal {c : Command} (hs : s.Legal) (h : writeCmd c s = .next t) : t.Legal := by
  obtain rfl | ⟨i, _, hexec⟩ := writeCmd_next h
  · exact { hs with idle := rfl, port := rfl }
  · have hissued : exec i { s with cmd := none, busy := true } = .next t := hexec
    exact exec_legal hs hissued

theorem performAction_legal {a : HostAction} (hs : s.Legal) (h : performAction a s = .next t) : t.Legal := by
  cases a with
  | wrBin0 | wrBin1 | wrSin | wrFt =>
    obtain ⟨_, rfl⟩ := hostWrite_refuseUnless_next h
    exact { hs with }
  | wrTree n =>
    obtain ⟨hn, rfl⟩ := hostWrite_refuseUnless_next h
    exact { hs with tree := fun _ hm => Option.some.inj hm ▸ of_decide_eq_true hn }
  | wrCt c =>
    obtain ⟨hc, rfl⟩ := hostWrite_refuseUnless_next h
    exact { hs with codes := fun _ hd => Option.some.inj hd ▸ hc }
  | wrCmd c => exact writeCmd_legal hs h
  | wrCmdIfOk c =>
    simp only [performAction] at h
    split at h
    · exact writeCmd_legal hs h
    · cases h
      exact hs
  | rd r =>
    obtain ⟨v, rfl⟩ := hostRead_next h
    exact { hs with }
  | movBits dst src =>
    obtain ⟨b, _, rfl⟩ := moveBits_next h
    exact { hs with }
  | movSyms =>
    obtain ⟨l, _, rfl⟩ := moveSyms_next h
    exact { hs with }
  | hufBuild | hufCompress => exact writeCmd_legal hs.thenDo h
  | reset =>
    cases h
    exact { reset_legal with }

end

/-- Settles O45: a step is idle or performs one host action, and each action keeps a state legal. -/
theorem stepsKeepStatesLegal : Obligations.StepsKeepStatesLegal := by
  intro s t hs h
  obtain ⟨_, rfl⟩ | ⟨a, rest, _, _, hact⟩ := step_next h
  · exact hs
  · have htaken : ({ s with program := rest } : State).Legal := { hs with }
    exact performAction_legal htaken hact

/-! ### The state after reset -/

/-- Settles O7: the values of R30. -/
theorem resetLeavesTheValuesOfTheSpec : Obligations.ResetLeavesTheValuesOfTheSpec :=
  ⟨rfl, rfl, rfl, fun e => by cases e <;> rfl⟩

/-- The reset state is within its capacities, which are unbounded (R3, log 4). -/
theorem reset_withinCapacity : State.reset.WithinCapacity where
  consistent := trivial
  bin0 := nofun
  bin1 := nofun
  sin := nofun
  bout0 := nofun
  bout1 := nofun
  sout := nofun
  ft := nofun

/-- Settles O44: the base case of both invariants. -/
theorem resetSatisfiesTheInvariants : Obligations.ResetSatisfiesTheInvariants := ⟨reset_legal, reset_withinCapacity⟩

end Sys2Proof.Machine
end

section
/-! Host actions on an idle block: a CMD write issues its operation, and a write of what is no value of the element is refused
(spec/10_state.md R22, R31; spec/93_implementation_defined.md U3). -/

namespace Sys2Proof.Machine

section
variable {s : State}

/-- A write of an operation's code to CMD issues it (R22, R31). -/
theorem writeCmd_of_decode {c : Command} {i : Instr} (hdecode : decode c = .ok i) :
    writeCmd c s = exec i { s with cmd := none, busy := true } := by
  simp [writeCmd, takeCommand, hdecode]

theorem hostWrite_refuseUnless_refused {ok : Bool} {r : Refusal} {put : State → State} (hok : ok = false) :
    hostWrite (refuseUnless ok r) put s = .refused r := by
  subst hok
  rfl

theorem HuffmanNode.legal_eq_false {n : HuffmanNode} (h : ¬ n.symbols.Nodup) : n.legal = false := decide_eq_false h

/-- One entry that is empty or over 255 bits makes a code table illegal (R21). -/
theorem codeTableLegal_eq_false {c : CodeTable} {v : Symbol} {code : Bits} (hcode : codeOf c v = some code)
    (hlength : code = [] ∨ 255 < code.length) : codeTableLegal c = false := by
  refine Bool.eq_false_iff.2 fun hlegal => ?_
  obtain ⟨hpos, hmax⟩ := codeTableLegal_iff.1 hlegal v code hcode
  obtain rfl | hover := hlength
  · simp at hpos
  · omega

end

/-- Settles O4: the idle block performs the CMD write, which issues the operation. -/
theorem cmdWriteRunsTheDecodedOperation : Obligations.CmdWriteRunsTheDecodedOperation := by
  intro s c i rest hidle hprogram hdecode
  rw [step_of_idle hidle hprogram]
  exact writeCmd_of_decode hdecode

/-- Settles O48: an idle block performs the write, which looks at the value first. -/
theorem illegalHostWriteIsRefused : Obligations.IllegalHostWriteIsRefused := by
  intro s rest hidle
  refine ⟨fun n hprogram hn => ?_, fun c v code hprogram hcode hlength => ?_, fun b hprogram hover => ?_,
    fun b hprogram hover => ?_, fun c hprogram hover => ?_, fun l hprogram hover => ?_⟩ <;>
    rw [step_of_idle hidle hprogram]
  · exact hostWrite_refuseUnless_refused (HuffmanNode.legal_eq_false hn)
  · exact hostWrite_refuseUnless_refused (codeTableLegal_eq_false hcode hlength)
  all_goals exact hostWrite_refuseUnless_refused hover

end Sys2Proof.Machine
end

section
/-! Operands and results over their capacity (spec/20_memory.md R53, spec/93_implementation_defined.md U4): one rule for each
operand form and one for the end of an operation, then the operations. -/

namespace Sys2Proof.Machine

section
variable {s : State} {i : Instr}

/-! ### Refusals by the operand forms and at the end of an operation -/

theorem State.withBin0_over {b : Bits} {k : Bits → Result} (h : s.bin0 = some b) (hover : fitsBits s.caps b.length = false) :
    s.withBin0 k = .refused (.overCapacity .bin0) :=
  readSource_over h hover

theorem State.withBin1_over {b : Bits} {k : Bits → Result} (h : s.bin1 = some b) (hover : fitsBits s.caps b.length = false) :
    s.withBin1 k = .refused (.overCapacity .bin1) :=
  readSource_over h hover

theorem State.withSin_over {l : Symbols} {k : Symbols → Result} (h : s.sin = some l)
    (hover : fitsSyms s.caps l.length = false) : s.withSin k = .refused (.overCapacity .sin) :=
  readSource_over h hover

theorem State.withFt_over {c : FreqTable} {k : FreqTable → Result} (h : s.ft = some c) (hover : fitsCounts s.caps c = false) :
    s.withFt k = .refused (.overCapacity .ft) :=
  readSource_over h hover

/-- A result that does not fit is refused, and the refusal names its destination (R53). -/
theorem conclude_overUnless {α : Type} {dests : List Element} {a : α} {d : Element} {fits : α → Bool}
    {put : α → State → State} (hover : fits a = false) :
    conclude dests (.ok a) (overUnless d fits) put s = .refused (.overCapacity d) :=
  conclude_exceeds (overUnless_eq_some.2 ⟨hover, rfl⟩)

/-! ### Operands -/

/-- Every operation that reads BIN0 reads it first (R61, log 19). -/
theorem exec_bin0_over {b : Bits} (hi : .bin0 ∈ sourcesOf i) (hb : s.bin0 = some b)
    (hover : fitsBits s.caps b.length = false) : exec i s = .refused (.overCapacity .bin0) := by
  cases i with
  | hamDecblk | hamDec | bpPack | scEnc | scDec | hufDec => exact State.withBin0_over hb hover
  | bpUnpack | hufFreq | hufTree | hufCodes | hufEnc => simp [sourcesOf] at hi

/-- Every operation that reads SIN reads it first (R61, log 19). -/
theorem exec_sin_over {l : Symbols} (hi : .sin ∈ sourcesOf i) (hl : s.sin = some l)
    (hover : fitsSyms s.caps l.length = false) : exec i s = .refused (.overCapacity .sin) := by
  cases i with
  | bpUnpack | hufFreq | hufEnc => exact State.withSin_over hl hover
  | hamDecblk | hamDec | bpPack | scEnc | scDec | hufTree | hufCodes | hufDec => simp [sourcesOf] at hi

theorem execScDec_bin1_over {b k : Bits} (hb : s.bin0 = some b) (hfit : fitsBits s.caps b.length = true)
    (hk : s.bin1 = some k) (hover : fitsBits s.caps k.length = false) : execScDec s = .refused (.overCapacity .bin1) :=
  (State.withBin0_some hb hfit).trans (State.withBin1_over hk hover)

/-! ### Results -/

theorem execBpPack_over {b : Bits} (hb : s.bin0 = some b) (hfit : fitsBits s.caps b.length = true)
    (hover : fitsSyms s.caps (b.length / 8) = false) : execBpPack s = .refused (.overCapacity .sout) :=
  (State.withBin0_some hb hfit).trans (conclude_overUnless (by rwa [pack_length]))

theorem execBpUnpack_over {l : Symbols} (hl : s.sin = some l) (hfit : fitsSyms s.caps l.length = true)
    (hover : fitsBits s.caps (8 * l.length) = false) : execBpUnpack s = .refused (.overCapacity .bout0) :=
  (State.withSin_some hl hfit).trans (conclude_overUnless (by rwa [unpack_length]))

theorem execHufFreq_over {l : Symbols} (hl : s.sin = some l) (hfit : fitsSyms s.caps l.length = true)
    (hover : fitsCount s.caps l.length = false) : execHufFreq s = .refused (.overCapacity .ft) :=
  (State.withSin_some hl hfit).trans (conclude_overUnless hover)

/-- A table with a non-zero count has a tree, whose root frequency is the sum of all counts (R136). -/
theorem exists_buildTree {c : FreqTable} (h : ∃ v : Symbol, 0 < countOf c v) :
    ∃ n, buildTree c = .ok n ∧ n.frequency = c.toList.sum := by
  cases hbuild : buildTree c with
  | error e =>
    obtain ⟨v, hv⟩ := h
    obtain ⟨_, hnoLeaf⟩ := buildTree_error hbuild
    have hzero : countOf c v = 0 := leafCandidates_eq_nil.1 hnoLeaf v
    omega
  | ok n =>
    obtain ⟨_, _, _, hroot⟩ := buildTree_ok hbuild
    exact ⟨n, rfl, hroot.trans (sum_nonzeroSymbols c)⟩

theorem execHufTree_over {c : FreqTable} (hc : s.ft = some c) (hfit : fitsCounts s.caps c = true)
    (hover : fitsCount s.caps c.toList.sum = false) (hleaf : ∃ v : Symbol, 0 < countOf c v) :
    execHufTree s = .refused (.overCapacity .tree) := by
  obtain ⟨n, hn, hroot⟩ := exists_buildTree hleaf
  refine (State.withFt_some hc hfit).trans ?_
  rw [hn]
  exact conclude_overUnless (by rwa [hroot])

theorem execHufEnc_over {l : Symbols} {c : CodeTable} (hl : s.sin = some l) (hc : s.ct = some c)
    (hfit : fitsSyms s.caps l.length = true) (hcodes : ∀ v ∈ l, (codeOf c v).isSome = true)
    (hover : fitsBits s.caps (l.flatMap fun v => (codeOf c v).getD []).length = false) :
    execHufEnc s = .refused (.overCapacity .bout0) := by
  refine (State.withSin_some hl hfit).trans ((State.withCt_some hc).trans ?_)
  rw [encodeSymbols_ok hcodes]
  exact conclude_overUnless hover

theorem execHufDec_over {b : Bits} {n : HuffmanNode} {out : Symbols} (hb : s.bin0 = some b)
    (hfit : fitsBits s.caps b.length = true) (hn : s.tree = some n) (hout : decodeBits n b = .ok out)
    (hover : fitsSyms s.caps out.length = false) : execHufDec s = .refused (.overCapacity .sout) := by
  refine (State.withBin0_some hb hfit).trans ((State.withTree_some hn).trans ?_)
  rw [hout]
  exact conclude_overUnless hover

end

/-- Settles O41: operands are looked at when they are read, results when the operation would complete. -/
theorem overCapacityIsRefused : Obligations.OverCapacityIsRefused :=
  ⟨fun _ _ _ => exec_bin0_over, fun _ _ _ => exec_sin_over, fun _ _ _ => execScDec_bin1_over, fun _ _ => State.withFt_over,
    fun _ _ => execBpPack_over, fun _ _ => execBpUnpack_over, fun _ _ => execHufFreq_over, fun _ _ => execHufTree_over,
    fun _ _ _ => execHufEnc_over, fun _ _ _ _ => execHufDec_over⟩

end Sys2Proof.Machine
end

section
/-! The host's writes and reads on an idle block (spec/20_memory.md R48, R54, spec/10_state.md R13): a write of a value of the
element replaces it, a read answers the value or is refused where there is none. -/

namespace Sys2Proof.Machine

section
variable {s : State} {r : Readable} {e : Element} {rest : List HostAction}

/-! ### Writes -/

theorem hostWrite_refuseUnless_put {ok : Bool} {refusal : Refusal} {put : State → State} (hok : ok = true) :
    hostWrite (refuseUnless ok refusal) put s = .next (put s) := by
  subst hok
  rfl

theorem HuffmanNode.legal_of_nodup {n : HuffmanNode} (h : n.symbols.Nodup) : n.legal = true := decide_eq_true h

/-! ### Reads -/

/-- The data element whose value a read delivers; STATUS, BUSY and the marks are none (R54, R131). -/
def Readable.dataElement : Readable → Option Element
  | .bout0 => some .bout0
  | .bout1 => some .bout1
  | .sout => some .sout
  | .epos => some .epos
  | .ft | .ftOrder => some .ft
  | .tree => some .tree
  | .ct => some .ct
  | .status | .busy | .mark _ => none

theorem heldValue_some {α : Type} {content : Option α} {view : α → ReadValue} {a : α} (h : content = some a) :
    heldValue e content view = .ok (view a) := by
  subst h
  rfl

theorem heldValue_eq_error {α : Type} {content : Option α} {view : α → ReadValue} {d : Element} :
    heldValue e content view = .error d ↔ e = d ∧ content.isSome = false := by
  cases content <;> simp [heldValue]

/-- A read answers no value exactly when the data element it reads holds none (R13). -/
theorem readElement_eq_error : readElement s r = .error e ↔ r.dataElement = some e ∧ s.holds e = false := by
  cases r with
  | status | busy | mark => simp [readElement, Readable.dataElement]
  | bout0 | bout1 | sout | epos | ft | ftOrder | tree | ct =>
    simp only [readElement, heldValue_eq_error, Readable.dataElement, Option.some.injEq]
    refine and_congr_right fun he => ?_
    subst he
    rfl

/-- What the host still has to do is no part of what it reads. -/
theorem readElement_program (s : State) (r : Readable) (rest : List HostAction) :
    readElement { s with program := rest } r = readElement s r := by
  cases r with
  | mark e => cases e <;> rfl
  | _ => rfl

/-- A read of what has a value notes it and changes nothing in the block (R48). -/
theorem step_rd_of_ok {v : ReadValue} (hidle : s.busy = false) (hprogram : s.program = .rd r :: rest)
    (hread : readElement s r = .ok v) : step s = .next { s with program := rest, reads := s.reads ++ [(r, v)] } := by
  simp [step_of_idle hidle hprogram, performAction, hostRead, readElement_program, hread, State.noteRead]

theorem step_rd_of_error (hidle : s.busy = false) (hprogram : s.program = .rd r :: rest)
    (hread : readElement s r = .error e) : step s = .refused (.readHoldsNoValue e) := by
  simp [step_of_idle hidle hprogram, performAction, hostRead, readElement_program, hread]

end

/-- Settles O47: an idle block performs the write, which finds its value one of the element. -/
theorem hostWriteReplacesTheElement : Obligations.HostWriteReplacesTheElement := by
  intro s rest hidle
  refine ⟨fun b hprogram hfit => ?_, fun b hprogram hfit => ?_, fun l hprogram hfit => ?_, fun c hprogram hfit => ?_,
    fun n hprogram hn => ?_, fun c hprogram hcodes => ?_⟩ <;>
    rw [step_of_idle hidle hprogram]
  case refine_5 => exact hostWrite_refuseUnless_put (HuffmanNode.legal_of_nodup hn)
  case refine_6 => exact hostWrite_refuseUnless_put (codeTableLegal_iff.2 hcodes)
  all_goals exact hostWrite_refuseUnless_put hfit

/-- Settles O49: an idle block performs the read, which answers a value or names the element that holds none. -/
theorem hostReadDeliversTheValue : Obligations.HostReadDeliversTheValue := by
  intro s rest hidle
  refine ⟨fun r hprogram => ?_, fun r e hr hprogram hmissing => ?_,
    fun b hprogram hb => step_rd_of_ok hidle hprogram (heldValue_some hb),
    fun b hprogram hb => step_rd_of_ok hidle hprogram (heldValue_some hb),
    fun l hprogram hl => step_rd_of_ok hidle hprogram (heldValue_some hl),
    fun p hprogram hp => step_rd_of_ok hidle hprogram (heldValue_some hp),
    fun c hprogram hc => step_rd_of_ok hidle hprogram (heldValue_some hc),
    fun c hprogram hc => step_rd_of_ok hidle hprogram (heldValue_some hc),
    fun n hprogram hn => step_rd_of_ok hidle hprogram (heldValue_some hn),
    fun c hprogram hc => step_rd_of_ok hidle hprogram (heldValue_some hc),
    fun hprogram => step_rd_of_ok hidle hprogram rfl, fun hprogram => step_rd_of_ok hidle hprogram rfl,
    fun e hprogram => step_rd_of_ok hidle hprogram rfl⟩
  · cases hread : readElement s r with
    | ok v => exact .inl ⟨v, step_rd_of_ok hidle hprogram hread⟩
    | error e =>
      obtain ⟨_, hmissing⟩ := readElement_eq_error.1 hread
      exact .inr ⟨e, hmissing, step_rd_of_error hidle hprogram hread⟩
  · have helement : r.dataElement = some e :=
      (by decide : ∀ p : Readable × Element, p ∈ _ → p.1.dataElement = some p.2) (r, e) hr
    exact step_rd_of_error hidle hprogram (readElement_eq_error.2 ⟨helement, hmissing⟩)

end Sys2Proof.Machine
end

section
/-! Command words (spec/30_encoding.md R60 to R62): the decoder and the encoder undo each other, and the five reserved words are
the ones that name no operation. -/

namespace Sys2Proof.Machine

section
variable {s : State} {c : Command} {i : Instr}

/-- The facts of the command words, collected over the operations. -/
theorem commandWord_statement (i : Instr) : Laws.CommandWord.Statement i := by
  cases i with
  | hamDecblk => exact Laws.CommandWord.hamDecblk
  | hamDec => exact Laws.CommandWord.hamDec
  | bpPack => exact Laws.CommandWord.bpPack
  | bpUnpack => exact Laws.CommandWord.bpUnpack
  | scEnc => exact Laws.CommandWord.scEnc
  | scDec => exact Laws.CommandWord.scDec
  | hufFreq => exact Laws.CommandWord.hufFreq
  | hufTree => exact Laws.CommandWord.hufTree
  | hufCodes => exact Laws.CommandWord.hufCodes
  | hufEnc => exact Laws.CommandWord.hufEnc
  | hufDec => exact Laws.CommandWord.hufDec

theorem decode_encode (i : Instr) : decode (encode i) = .ok i := (commandWord_statement i).2

/-- Each row of the decoder's table is the word of its operation; the last row names none (R61). -/
theorem encode_eq_of_decode (h : decode c = .ok i) : encode i = c := by
  unfold decode at h
  split at h
  case h_12 => cases h
  all_goals
    cases h
    rfl

theorem decode_reserved (h : c = 0x0 ∨ c = 0xC ∨ c = 0xD ∨ c = 0xE ∨ c = 0xF) : decode c = .error (.reserved c) := by
  obtain rfl | rfl | rfl | rfl | rfl := h <;> rfl

/-- Only the five reserved words fall through the decoder's eleven rows (R62). -/
theorem exists_decode_of_not_reserved (h : ¬(c = 0x0 ∨ c = 0xC ∨ c = 0xD ∨ c = 0xE ∨ c = 0xF)) :
    ∃ i, decode c = .ok i := by
  unfold decode
  split
  case h_12 =>
    simp only [imp_false, not_or] at *
    bv_omega
  all_goals exact ⟨_, rfl⟩

/-- A write to CMD of a code that names no operation completes at once as IllegalOp (R62). -/
theorem writeCmd_of_decode_error {e : DecodeError} (hdecode : decode c = .error e) :
    writeCmd c s = .next ({ s with cmd := none }.takeError [] .illegalOp) := by
  simp [writeCmd, takeCommand, hdecode]

end

/-- Settles O1. -/
theorem decodingUndoesEncoding : Obligations.DecodingUndoesEncoding := ⟨decode_encode, fun _ _ => encode_eq_of_decode⟩

/-- Settles O2: a word that is not reserved names an operation, so it is no error. -/
theorem reservedWordsAreExactlyFive : Obligations.ReservedWordsAreExactlyFive := by
  refine fun c => ⟨fun herror => ?_, decode_reserved⟩
  by_contra hc
  obtain ⟨i, hi⟩ := exists_decode_of_not_reserved hc
  simp [hi] at herror

/-- Settles O3: each word of the binary column is the word of its row's operation. -/
theorem commandWordsDecodeAsTheTableSays : Obligations.CommandWordsDecodeAsTheTableSays :=
  ⟨decode_encode .hamDecblk, decode_encode .hamDec, decode_encode .bpPack, decode_encode .bpUnpack, decode_encode .scEnc,
    decode_encode .scDec, decode_encode .hufFreq, decode_encode .hufTree, decode_encode .hufCodes, decode_encode .hufEnc,
    decode_encode .hufDec⟩

/-- Settles O5: IllegalOp has no destinations, so taking it on an idle block changes STATUS alone. -/
theorem reservedCommandOnlySetsStatus : Obligations.ReservedCommandOnlySetsStatus := by
  refine ⟨fun s c rest hidle hprogram hc => ?_, fun c => exists_decode_of_not_reserved⟩
  have hissued : step s = writeCmd c { s with program := rest } := step_of_idle hidle hprogram
  rw [hissued, writeCmd_of_decode_error (decode_reserved hc)]
  simp [State.takeError, OpError.code, hidle]

end Sys2Proof.Machine
end

section
/-! The Hamming decoder's error positions and its syndrome table (spec/30_encoding.md R64 to R66, spec/40_hamming.md R90). -/

namespace Sys2Proof.Machine

section
variable {s t : State} {i : Instr}

/-- An operation that writes EPOS invalidates it or writes the positions of a stream's windows (R91, R92). -/
theorem exec_epos_of_mem_destinationsOf (hd : .epos ∈ destinationsOf i) (h : exec i s = .next t) :
    t.epos = none ∨ ∃ b, t.epos = some (decodeWindows b).2 := by
  obtain rfl | rfl := eq_of_epos_mem_destinationsOf hd
  · obtain ⟨b, _, _, ⟨_, rfl⟩ | ⟨_, rfl⟩⟩ := execHamDecblk_next h
    · exact .inl rfl
    · exact .inr ⟨b, rfl⟩
  · obtain ⟨b, _, _, ⟨_, rfl⟩ | ⟨_, rfl⟩⟩ := execHamDec_next h
    · exact .inl rfl
    · exact .inr ⟨b, rfl⟩

/-- A recomputed parity differs from the received one exactly when all four bits sum to 1 modulo 2 (R65). -/
theorem bne_parity (p a b c : Bit) : (p != (a ^^ b ^^ c)) = (p ^^ a ^^ b ^^ c) := by
  simp [Bool.bne_eq_xor]

end

/-- Settles O15: the positions written are those of a stream's windows. -/
theorem errorPositionsNeverExceedFour : Obligations.ErrorPositionsNeverExceedFour := by
  intro i s t p hd h hp
  obtain hnone | ⟨b, hb⟩ := exec_epos_of_mem_destinationsOf hd h
  · simp [hnone] at hp
  · obtain rfl : (decodeWindows b).2 = p := by simpa [hb] using hp
    exact decodeWindows_positions b

/-- Settles O9: case by case over the eight values of the syndrome. -/
theorem decodeBlockFollowsTheSyndromeTable : Obligations.DecodeBlockFollowsTheSyndromeTable := by
  intro c1 c2 c3 c4 c5 c6 c7
  simp only [decodeBlock, bne_parity]
  cases (c5 ^^ c1 ^^ c2 ^^ c3) <;> cases (c6 ^^ c1 ^^ c2 ^^ c4) <;> cases (c7 ^^ c2 ^^ c3 ^^ c4) <;>
    simp [syndromePosition]

end Sys2Proof.Machine
end

section
/-! The view FT.order (spec/30_encoding.md R71, spec/43_huffman_encoder.md R131): a sort of all symbols, whose order is total, so
that the symbols of non-zero count stand in front. -/

namespace Sys2Proof.Machine

section
variable {t : FreqTable} {v w : Symbol}

theorem ranksBefore_iff :
    ranksBefore t v w = true ↔ countOf t w < countOf t v ∨ (countOf t v = countOf t w ∧ v.toNat ≤ w.toNat) := by
  simp [ranksBefore]

theorem ranksBefore_total (t : FreqTable) : Std.Total fun v w => ranksBefore t v w = true where
  total v w := by
    simp only [ranksBefore_iff]
    omega

theorem ranksBefore_trans (t : FreqTable) : IsTrans Symbol fun v w => ranksBefore t v w = true where
  trans u v w := by
    simp only [ranksBefore_iff]
    omega

theorem frequencyOrder_perm (t : FreqTable) : (frequencyOrder t).Perm allSymbols := List.perm_insertionSort _ _

theorem frequencyOrder_nodup (t : FreqTable) : (frequencyOrder t).Nodup := (frequencyOrder_perm t).nodup_iff.2 allSymbols_nodup

theorem mem_frequencyOrder (t : FreqTable) (v : Symbol) : v ∈ frequencyOrder t :=
  (frequencyOrder_perm t).mem_iff.2 (mem_allSymbols v)

theorem frequencyOrder_pairwise_ranksBefore (t : FreqTable) :
    (frequencyOrder t).Pairwise fun v w => ranksBefore t v w = true :=
  haveI := ranksBefore_total t
  haveI := ranksBefore_trans t
  List.pairwise_insertionSort _ _

/-- Different symbols have different values, so the order is strict (R71). -/
theorem frequencyOrder_pairwise (t : FreqTable) : (frequencyOrder t).Pairwise fun v w =>
    countOf t w < countOf t v ∨ (countOf t v = countOf t w ∧ v.toNat < w.toNat) := by
  refine (frequencyOrder_pairwise_ranksBefore t).imp₂ (fun v w hrank hne => ?_) (frequencyOrder_nodup t)
  have hvalue : v.toNat ≠ w.toNat := fun h => hne (BitVec.eq_of_toNat_eq h)
  have := ranksBefore_iff.1 hrank
  omega

end

/-- In a list where whatever stands before an element with `p` has `p` too, the elements with `p` are the first ones. -/
theorem take_length_filter {α : Type} {p : α → Bool} {l : List α} (h : l.Pairwise fun v w => p w = true → p v = true) :
    l.take (l.filter p).length = l.filter p := by
  induction h with
  | nil => rfl
  | @cons v rest hv _ ih =>
    by_cases hp : p v = true
    · simp [hp, ih]
    · have hnone : rest.filter p = [] := List.filter_eq_nil_iff.2 fun w hw hpw => hp (hv w hw hpw)
      simp [hp, hnone]

/-- The first symbols of FT.order are those of non-zero count (R131). -/
theorem frequencyOrder_take (t : FreqTable) :
    (frequencyOrder t).take (nonzeroSymbols t).length = (frequencyOrder t).filter fun v => decide (0 < countOf t v) := by
  have hlength : (nonzeroSymbols t).length = ((frequencyOrder t).filter fun v => decide (0 < countOf t v)).length :=
    ((frequencyOrder_perm t).symm.filter _).length_eq
  rw [hlength]
  refine take_length_filter ((frequencyOrder_pairwise t).imp fun {v w} horder hw => ?_)
  simp only [decide_eq_true_eq] at hw ⊢
  omega

/-- Settles O23. -/
theorem frequencyOrderIsDescending : Obligations.FrequencyOrderIsDescending := fun t =>
  ⟨frequencyOrder_perm t, frequencyOrder_pairwise t, fun v => by
    rw [frequencyOrder_take, List.mem_filter, decide_eq_true_eq]
    exact and_iff_right (mem_frequencyOrder t v)⟩

end Sys2Proof.Machine
end

section
/-! The pseudo-operations on an idle block (spec/30_encoding.md R76): what each puts first in the host's list (log 9). -/

namespace Sys2Proof.Machine

section
variable {s : State} {rest : List HostAction}

/-- What the host still has to do is no part of what a move reads. -/
theorem State.bitResult_program (s : State) (src : BitResult) (rest : List HostAction) :
    ({ s with program := rest } : State).bitResult src = s.bitResult src := by
  cases src <;> rfl

theorem step_movBits_of_some {dst : BitOperand} {src : BitResult} {b : Bits} (hidle : s.busy = false)
    (hprogram : s.program = .movBits dst src :: rest) (hb : s.bitResult src = some b) :
    step s = .next { s with program := dst.write b :: rest, reads := s.reads ++ [(src.readable, .bits b)] } := by
  simp [step_of_idle hidle hprogram, performAction, moveBits, State.bitResult_program, hb, State.noteRead, State.thenDo]

theorem step_movBits_of_none {dst : BitOperand} {src : BitResult} (hidle : s.busy = false)
    (hprogram : s.program = .movBits dst src :: rest) (hnone : s.bitResult src = none) :
    step s = .refused (.readHoldsNoValue src.element) := by
  simp [step_of_idle hidle hprogram, performAction, moveBits, State.bitResult_program, hnone]

theorem step_movSyms_of_some {l : Symbols} (hidle : s.busy = false) (hprogram : s.program = .movSyms :: rest)
    (hl : s.sout = some l) :
    step s = .next { s with program := .wrSin l :: rest, reads := s.reads ++ [(.sout, .syms l)] } := by
  simp [step_of_idle hidle hprogram, performAction, moveSyms, hl, State.noteRead, State.thenDo]

theorem step_movSyms_of_none (hidle : s.busy = false) (hprogram : s.program = .movSyms :: rest) (hnone : s.sout = none) :
    step s = .refused (.readHoldsNoValue .sout) := by
  simp [step_of_idle hidle hprogram, performAction, moveSyms, hnone]

/-- The command word of HUF.FREQ issues HUF.FREQ, whatever the host is still to do (R61). -/
theorem writeCmd_hufFreq (s : State) : writeCmd 0x7 s = exec .hufFreq { s with cmd := none, busy := true } :=
  writeCmd_of_decode (decode_encode .hufFreq)

end

/-- Settles O50: a move reads like a host read, and its write is the next action. -/
theorem moveReadsThenWrites : Obligations.MoveReadsThenWrites := by
  intro s rest hidle
  exact ⟨fun b hprogram hb => step_movBits_of_some hidle hprogram hb,
    fun b hprogram hb => step_movBits_of_some hidle hprogram hb,
    fun b hprogram hb => step_movBits_of_some hidle hprogram hb,
    fun b hprogram hb => step_movBits_of_some hidle hprogram hb,
    fun dst hprogram hnone => step_movBits_of_none hidle hprogram hnone,
    fun dst hprogram hnone => step_movBits_of_none hidle hprogram hnone,
    fun l hprogram hl => step_movSyms_of_some hidle hprogram hl,
    fun hprogram hnone => step_movSyms_of_none hidle hprogram hnone⟩

/-- Settles O51: both pseudo-operations issue HUF.FREQ, and the guard of a guarded write is STATUS. -/
theorem pseudoOperationsStopAtTheFirstFailure : Obligations.PseudoOperationsStopAtTheFirstFailure := by
  intro s rest hidle
  refine ⟨fun hprogram => ?_, fun hprogram => ?_, fun c hprogram hfailed => ?_, fun c hprogram hok => ?_⟩
  · exact (step_of_idle hidle hprogram).trans (writeCmd_hufFreq _)
  · exact (step_of_idle hidle hprogram).trans (writeCmd_hufFreq _)
  · exact (step_of_idle hidle hprogram).trans (if_neg hfailed)
  · have hissued : step { s with program := .wrCmd c :: rest } = writeCmd c { s with program := rest } :=
      step_of_idle (s := { s with program := .wrCmd c :: rest }) hidle rfl
    exact ((step_of_idle hidle hprogram).trans (if_pos hok)).trans hissued.symm

end Sys2Proof.Machine
end

section
/-! The Hamming code's correction of one flip, and HAM.DECBLK and HAM.DEC on whole operands (spec/40_hamming.md R91 to R94). -/

namespace Sys2Proof.Machine

/-! ### One flip -/

/-- The block of four data bits whose parity bits differ by `e1`, `e2`, `e3` from the parities of these data bits (R64, R65). -/
def blockOfErrors (c1 c2 c3 c4 e1 e2 e3 : Bit) : Bits :=
  [c1, c2, c3, c4, e1 ^^ (c1 ^^ c2 ^^ c3), e2 ^^ (c1 ^^ c2 ^^ c4), e3 ^^ (c2 ^^ c3 ^^ c4)]

/-- The position, 1 to 7, whose flip in a codeword makes these parity errors; 0 where there are none (R93). -/
def flipOfErrors : Bit → Bit → Bit → Fin 8
  | false, false, false => 0
  | true, true, false => 1
  | true, true, true => 2
  | true, false, true => 3
  | false, true, true => 4
  | true, false, false => 5
  | false, true, false => 6
  | false, false, true => 7

/-- Every block is one of its own data bits and some parity errors. -/
theorem exists_eq_blockOfErrors (c1 c2 c3 c4 c5 c6 c7 : Bit) :
    ∃ e1 e2 e3, [c1, c2, c3, c4, c5, c6, c7] = blockOfErrors c1 c2 c3 c4 e1 e2 e3 :=
  ⟨c5 ^^ (c1 ^^ c2 ^^ c3), c6 ^^ (c1 ^^ c2 ^^ c4), c7 ^^ (c2 ^^ c3 ^^ c4), by simp [blockOfErrors]⟩

/-- Every position is the flip that makes some parity errors. -/
theorem exists_eq_flipOfErrors : ∀ k : Fin 8, ∃ e1 e2 e3, k = flipOfErrors e1 e2 e3 := by decide

/-- The syndrome table gives the flipped position where it is a data bit's, else 0 (R65). -/
theorem position_flipOfErrors : ∀ e1 e2 e3 : Bit,
    (if (flipOfErrors e1 e2 e3).val ≤ 4 then BitVec.ofNat 3 (flipOfErrors e1 e2 e3).val else 0) =
      syndromePosition e1 e2 e3 := by
  decide

/-- The parity errors are the syndrome, so they alone decide what is corrected (R90). -/
theorem decodeWindows_blockOfErrors (c1 c2 c3 c4 e1 e2 e3 : Bit) :
    decodeWindows (blockOfErrors c1 c2 c3 c4 e1 e2 e3) =
      ([c1 ^^ (syndromePosition e1 e2 e3 == 1), c2 ^^ (syndromePosition e1 e2 e3 == 2),
        c3 ^^ (syndromePosition e1 e2 e3 == 3), c4 ^^ (syndromePosition e1 e2 e3 == 4)], [syndromePosition e1 e2 e3]) := by
  simp [blockOfErrors, decodeBlock, Bool.bne_eq_xor]

/-- A codeword with one position flipped has the parity errors of that position, and the data bit of the table flipped. -/
theorem flipAt_codeword (d1 d2 d3 d4 e1 e2 e3 : Bit) :
    flipAt (flipOfErrors e1 e2 e3).val (codeword d1 d2 d3 d4) =
      blockOfErrors (d1 ^^ (syndromePosition e1 e2 e3 == 1)) (d2 ^^ (syndromePosition e1 e2 e3 == 2))
        (d3 ^^ (syndromePosition e1 e2 e3 == 3)) (d4 ^^ (syndromePosition e1 e2 e3 == 4)) e1 e2 e3 := by
  cases e1 <;> cases e2 <;> cases e3 <;> simp [flipOfErrors, syndromePosition, flipAt, codeword, blockOfErrors]

/-- Settles O10: the flip and its correction cancel. -/
theorem singleFlipIsHarmless : Obligations.SingleFlipIsHarmless := by
  intro d1 d2 d3 d4 k
  obtain ⟨e1, e2, e3, rfl⟩ := exists_eq_flipOfErrors k
  rw [flipAt_codeword, decodeWindows_blockOfErrors, position_flipOfErrors]
  simp

/-- Settles O11: a block's parity errors name the flip that makes it of the codeword of its decoded data. -/
theorem everyBlockIsOneFlipFromOneCodeword : Obligations.EveryBlockIsOneFlipFromOneCodeword := by
  intro c1 c2 c3 c4 c5 c6 c7 d1 d2 d3 d4
  constructor
  · rintro ⟨k, hk⟩
    have hdata := congrArg Prod.fst (singleFlipIsHarmless d1 d2 d3 d4 k)
    simpa [hk] using hdata
  · intro hdata
    obtain ⟨e1, e2, e3, hblock⟩ := exists_eq_blockOfErrors c1 c2 c3 c4 c5 c6 c7
    have hdecoded : (decodeWindows (blockOfErrors c1 c2 c3 c4 e1 e2 e3)).1 = [d1, d2, d3, d4] := by
      simpa [← hblock] using hdata
    rw [decodeWindows_blockOfErrors] at hdecoded
    refine ⟨flipOfErrors e1 e2 e3, ?_⟩
    obtain ⟨rfl, rfl, rfl, rfl⟩ : _ ∧ _ ∧ _ ∧ _ := by simpa using hdecoded
    rw [flipAt_codeword, hblock]
    simp

/-! ### How the two operations end -/

section
variable {s : State} {b : Bits}

theorem exec_hamDecblk_of_length_eq (hb : s.bin0 = some b) (hfit : fitsBits s.caps b.length = true) (hlen : b.length = 7) :
    exec .hamDecblk s = .next { s with
      bout0 := some (decodeWindows b).1
      epos := some (decodeWindows b).2
      status := 0
      busy := false } := by
  have hok : decodeOneBlock b = .ok (decodeWindows b) := if_neg (not_not.2 hlen)
  exact (State.withBin0_some hb hfit).trans (by rw [hok]; rfl)

theorem exec_hamDecblk_of_length_ne (hb : s.bin0 = some b) (hfit : fitsBits s.caps b.length = true) (hlen : b.length ≠ 7) :
    exec .hamDecblk s = .next { s with bout0 := none, epos := none, status := 1, busy := false } := by
  have herror : decodeOneBlock b = .error .incompleteBlock := if_pos hlen
  exact (State.withBin0_some hb hfit).trans (by rw [herror]; rfl)

theorem exec_hamDec_of_whole (hb : s.bin0 = some b) (hfit : fitsBits s.caps b.length = true) (hlen : b.length % 7 = 0) :
    exec .hamDec s = .next { s with
      bout0 := some (decodeWindows b).1
      epos := some (decodeWindows b).2
      status := 0
      busy := false } := by
  have hok : decodeBlocks b = .ok (decodeWindows b) := if_neg (not_not.2 hlen)
  exact (State.withBin0_some hb hfit).trans (by rw [hok]; rfl)

theorem exec_hamDec_of_not_whole (hb : s.bin0 = some b) (hfit : fitsBits s.caps b.length = true) (hlen : b.length % 7 ≠ 0) :
    exec .hamDec s = .next { s with bout0 := none, epos := none, status := 1, busy := false } := by
  have herror : decodeBlocks b = .error .incompleteBlock := if_pos hlen
  exact (State.withBin0_some hb hfit).trans (by rw [herror]; rfl)

end

/-- Settles O12: seven bits are one window. -/
theorem hamDecblkDecodesOneBlockOrFails : Obligations.HamDecblkDecodesOneBlockOrFails := by
  refine ⟨rfl, fun s c1 c2 c3 c4 c5 c6 c7 hb hfit => ?_, fun s b hb hfit hlen => exec_hamDecblk_of_length_ne hb hfit hlen⟩
  simpa using exec_hamDecblk_of_length_eq hb hfit rfl

/-! ### Streams of windows -/

/-- Without its first `k` windows a stream decodes to what is left after `k` results (R92). -/
theorem decodeWindows_drop (b : Bits) (k : Nat) :
    decodeWindows (b.drop (7 * k)) = ((decodeWindows b).1.drop (4 * k), (decodeWindows b).2.drop k) := by
  induction b using windows_induction generalizing k with
  | short b h => simp [decodeWindows_short h, decodeWindows_short (b := b.drop (7 * k)) (by simp; omega)]
  | window c1 c2 c3 c4 c5 c6 c7 rest ih =>
    cases k with
    | zero => simp
    | succ k =>
      rw [Nat.mul_succ, Nat.mul_succ, decodeWindows_cons]
      have hskip : ((decodeBlock c1 c2 c3 c4 c5 c6 c7).1 ++ (decodeWindows rest).1).drop 4 = (decodeWindows rest).1 :=
        List.drop_left' (decodeBlock_length ..)
      simpa [Nat.add_comm _ 4, ← List.drop_drop, hskip] using ih k

/-- Window `k` of a stream gives result `k` (R92). -/
theorem decodeWindows_window {b : Bits} {k : Nat} {c1 c2 c3 c4 c5 c6 c7 : Bit}
    (h : (b.drop (7 * k)).take 7 = [c1, c2, c3, c4, c5, c6, c7]) :
    ((decodeWindows b).1.drop (4 * k)).take 4 = (decodeBlock c1 c2 c3 c4 c5 c6 c7).1 ∧
      (decodeWindows b).2[k]? = some (decodeBlock c1 c2 c3 c4 c5 c6 c7).2 := by
  have hsplit : b.drop (7 * k) = c1 :: c2 :: c3 :: c4 :: c5 :: c6 :: c7 :: (b.drop (7 * k)).drop 7 := by
    rw [← List.take_append_drop 7 (b.drop (7 * k)), h]
    simp
  have hdrop := decodeWindows_drop b k
  rw [hsplit, decodeWindows_cons, Prod.mk.injEq] at hdrop
  obtain ⟨hbits, hpositions⟩ := hdrop
  refine ⟨by rw [← hbits, List.take_left' (by simp)], ?_⟩
  rw [← Nat.add_zero k, ← List.getElem?_drop, ← hpositions]
  rfl

/-- Settles O13: the results are those of the loop over windows. -/
theorem hamDecDecodesWindowByWindow : Obligations.HamDecDecodesWindowByWindow := by
  refine ⟨rfl, fun s b hb hfit hlen => ?_, fun s b hb hfit hlen => exec_hamDec_of_not_whole hb hfit hlen⟩
  obtain ⟨hbits, hpositions⟩ := decodeWindows_length b
  exact ⟨_, _, exec_hamDec_of_whole hb hfit hlen, hbits, hpositions,
    fun k _ _ _ _ _ _ _ _ hwindow => decodeWindows_window hwindow⟩

/-- A codeword of four data bits, received with at most one position flipped (R93). -/
def damagedCodeword (x : (Bit × Bit × Bit × Bit) × Fin 8) : Bits :=
  flipAt x.2.val (codeword x.1.1 x.1.2.1 x.1.2.2.1 x.1.2.2.2)

@[simp] theorem damagedCodeword_length (x : (Bit × Bit × Bit × Bit) × Fin 8) : (damagedCodeword x).length = 7 := by
  simp [damagedCodeword, flipAt, codeword]

/-- The windows of damaged codewords are these codewords, each decoded on its own (R92, R93). -/
theorem decodeWindows_damagedCodewords (blocks : List ((Bit × Bit × Bit × Bit) × Fin 8)) :
    decodeWindows (blocks.flatMap damagedCodeword) =
      (blocks.flatMap fun x => [x.1.1, x.1.2.1, x.1.2.2.1, x.1.2.2.2],
        blocks.map fun x => if x.2.val ≤ 4 then BitVec.ofNat 3 x.2.val else 0) := by
  induction blocks with
  | nil => rfl
  | cons x rest ih =>
    rw [List.flatMap_cons, decodeWindows_append (damagedCodeword_length x), damagedCodeword, singleFlipIsHarmless, ih]
    rfl

/-- Settles O14, by induction on the codewords. -/
theorem hamDecRecoversDamagedCodewords : Obligations.HamDecRecoversDamagedCodewords := by
  intro s blocks hb hfit
  have hlen : (blocks.flatMap damagedCodeword).length = 7 * blocks.length := by simp [List.length_flatMap, Nat.mul_comm]
  have hexec := exec_hamDec_of_whole (b := blocks.flatMap damagedCodeword) hb (hlen ▸ hfit) (by omega)
  rwa [decodeWindows_damagedCodewords] at hexec

end Sys2Proof.Machine
end

section
/-! The bit packer (spec/41_bitpacker.md R110 to R114): `pack` and `unpack` undo each other, so the bits of a packed stream's
symbols are the bits of the stream. -/

namespace Sys2Proof.Machine

/-! ### Round trips -/

/-- A symbol's bits are one group, which packs to the symbol. -/
theorem pack_bitsOfSymbol_append (v : Symbol) (b : Bits) : pack (bitsOfSymbol v ++ b) = v :: pack b :=
  congrArg (· :: pack b) (symbolOfBits_bits v)

/-- Law (a) of R114. -/
theorem pack_unpack (l : Symbols) : pack (unpack l) = l := by
  induction l with
  | nil => rfl
  | cons v rest ih => rw [unpack_cons, pack_bitsOfSymbol_append, ih]

/-- Law (c) of R114. -/
theorem unpack_pack (b : Bits) : unpack (pack b) = b.take (8 * (b.length / 8)) := by
  induction b using groups_induction with
  | short b h => simp [pack_short h, Nat.div_eq_of_lt h]
  | group b0 b1 b2 b3 b4 b5 b6 b7 rest ih =>
    have hgroups : (rest.length + 8) / 8 = rest.length / 8 + 1 := Nat.add_div_right _ (by decide)
    simp [ih, hgroups, Nat.mul_succ]

/-- Settles O18: the bits that `pack` drops are none where the groups are whole. -/
theorem packAndUnpackAreInverse : Obligations.PackAndUnpackAreInverse := by
  refine ⟨pack_unpack, fun b hwhole => ?_, unpack_pack, pack_length, unpack_length⟩
  have hlen : 8 * (b.length / 8) = b.length := Nat.mul_div_cancel' (Nat.dvd_of_mod_eq_zero hwhole)
  rw [unpack_pack, hlen, List.take_length]

/-! ### One bit of a symbol -/

theorem bitsOfSymbol_getElem? (v : Symbol) {j : Nat} (hj : j < 8) : (bitsOfSymbol v)[j]? = some (v.getLsbD (7 - j)) := by
  interval_cases j <;> rfl

/-- Bit `j` of group `g` is bit `7 - j` of symbol `g` (R112). -/
theorem unpack_getElem? {l : Symbols} {g j : Nat} (hg : g < l.length) (hj : j < 8) :
    (unpack l)[8 * g + j]? = some ((l.getD g 0).getLsbD (7 - j)) := by
  induction l generalizing g with
  | nil => simp at hg
  | cons v rest ih =>
    rw [unpack_cons]
    cases g with
    | zero =>
      rw [Nat.mul_zero, Nat.zero_add, List.getElem?_append_left (by rwa [bitsOfSymbol_length])]
      exact bitsOfSymbol_getElem? v hj
    | succ g =>
      have hskip : 8 * (g + 1) + j = (bitsOfSymbol v).length + (8 * g + j) := by simp; omega
      rw [hskip, List.getElem?_append_right (Nat.le_add_right ..), Nat.add_sub_cancel_left]
      exact ih (Nat.lt_of_succ_lt_succ hg)

/-- Unpacking the packed symbols gives the stream's bits back, so these are the bits of the symbols (R110). -/
theorem getD_eq_getLsbD_pack {b : Bits} {g j : Nat} (hg : g < b.length / 8) (hj : j < 8) :
    b.getD (8 * g + j) false = ((pack b).getD g 0).getLsbD (7 - j) := by
  have hbit := unpack_getElem? (l := pack b) (by rwa [pack_length]) hj
  rw [unpack_pack, List.getElem?_take_of_lt (by omega)] at hbit
  rw [List.getD_eq_getElem?_getD, hbit, Option.getD_some]

/-! ### How the two operations end -/

section
variable {s : State}

theorem exec_bpPack {b : Bits} (hb : s.bin0 = some b) (hfit : fitsBits s.caps b.length = true)
    (hout : fitsSyms s.caps (b.length / 8) = true) :
    exec .bpPack s = .next { s with sout := some (pack b), status := 0, busy := false } :=
  (State.withBin0_some hb hfit).trans (conclude_ok (overUnless_eq_none.2 (by rwa [pack_length])))

theorem exec_bpUnpack {l : Symbols} (hl : s.sin = some l) (hfit : fitsSyms s.caps l.length = true)
    (hout : fitsBits s.caps (8 * l.length) = true) :
    exec .bpUnpack s = .next { s with bout0 := some (unpack l), status := 0, busy := false } :=
  (State.withSin_some hl hfit).trans (conclude_ok (overUnless_eq_none.2 (by rwa [unpack_length])))

end

/-- Settles O17: the bits of symbol `g` stand after those of the `g` symbols before it. -/
theorem unpackGivesEightBitsASymbol : Obligations.UnpackGivesEightBitsASymbol :=
  ⟨rfl, fun _ l hl hfit hout => ⟨unpack l, exec_bpUnpack hl hfit hout, unpack_length l, fun _ _ => unpack_getElem?⟩⟩

/-- Settles O16: a symbol has the value of its own eight bits, and these are the stream's. -/
theorem packMakesSymbolsMostSignificantFirst : Obligations.PackMakesSymbolsMostSignificantFirst := by
  refine ⟨rfl, fun s b hb hfit hout => ⟨pack b, exec_bpPack hb hfit hout, pack_length b, fun g hg => ?_⟩⟩
  have hbit : ∀ j < 8, b.getD (8 * g + j) false = ((pack b).getD g 0).getLsbD (7 - j) :=
    fun _ => getD_eq_getLsbD_pack hg
  have hfirst : b.getD (8 * g) false = ((pack b).getD g 0).getLsbD 7 := hbit 0 (by decide)
  rw [hfirst, hbit 1 (by decide), hbit 2 (by decide), hbit 3 (by decide), hbit 4 (by decide),
    hbit 5 (by decide), hbit 6 (by decide), hbit 7 (by decide), ← symbolOfBits_toNat, symbolOfBits_bits]

end Sys2Proof.Machine
end

section
/-! The stream cipher (spec/42_stream_cipher.md R120 to R123): how SC.ENC and SC.DEC end, and that a second xor with the token
undoes the first. -/

namespace Sys2Proof.Machine

/-- A second xor with one sequence gives the first operand back (R123). -/
theorem xorSeq_xorSeq_cancel {p k : Bits} (h : p.length = k.length) : xorSeq (xorSeq p k) k = p := by
  induction p generalizing k with
  | nil => rfl
  | cons a p ih =>
    cases k with
    | nil => nomatch h
    | cons b k =>
      have htail : xorSeq (xorSeq p k) k = p := ih (Nat.succ.inj h)
      rw [xorSeq_cons, xorSeq_cons, htail, Bool.xor_assoc, Bool.xor_self, Bool.xor_false]

/-! ### How the two operations end -/

section
variable {s : State}

/-- SC.ENC draws its token, one bit for each plaintext bit, and drops it from the source (R121, log 5). -/
theorem exec_scEnc {p : Bits} (hp : s.bin0 = some p) (hfit : fitsBits s.caps p.length = true) :
    exec .scEnc s = .next { s with
      bout0 := some (xorSeq p (s.draws p.length))
      bout1 := some (s.draws p.length)
      status := 0
      busy := false
      source := s.source.drop p.length
      drawn := s.drawn + p.length } :=
  State.withBin0_some hp hfit

/-- A token that the source is given is the token drawn (R27, log 5). -/
theorem exec_scEnc_of_source {p k later : Bits} (hp : s.bin0 = some p) (hfit : fitsBits s.caps p.length = true)
    (hlen : k.length = p.length) (hsource : s.source = k ++ later) :
    exec .scEnc s = .next { s with
      bout0 := some (xorSeq p k)
      bout1 := some k
      status := 0
      busy := false
      source := later
      drawn := s.drawn + p.length } := by
  have htoken : s.draws p.length = k := hlen ▸ State.draws_of_source hsource
  have hrest : s.source.drop p.length = later := by rw [hsource, ← hlen, List.drop_left]
  rw [exec_scEnc hp hfit, htoken, hrest]

theorem exec_scDec_of_length_eq {c k : Bits} (hc : s.bin0 = some c) (hk : s.bin1 = some k)
    (hfit : fitsBits s.caps c.length = true) (hlen : c.length = k.length) :
    exec .scDec s = .next { s with bout0 := some (xorSeq c k), status := 0, busy := false } := by
  have hok : decrypt c k = .ok (xorSeq c k) := if_neg (not_not.2 hlen)
  refine (State.withBin0_some hc hfit).trans ((State.withBin1_some hk (hlen ▸ hfit)).trans ?_)
  rw [hok]
  rfl

theorem exec_scDec_of_length_ne {c k : Bits} (hc : s.bin0 = some c) (hk : s.bin1 = some k)
    (hfit : fitsBits s.caps c.length = true) (hfitToken : fitsBits s.caps k.length = true) (hlen : c.length ≠ k.length) :
    exec .scDec s = .next { s with bout0 := none, status := 2, busy := false } := by
  have herror : decrypt c k = .error .lengthMismatch := if_pos hlen
  refine (State.withBin0_some hc hfit).trans ((State.withBin1_some hk hfitToken).trans ?_)
  rw [herror]
  rfl

/-- SC.DEC on what an SC.ENC run left in BOUT0 and BOUT1 has operands of one length, and their xor is the run's plaintext (R123). -/
theorem exec_scDec_of_exec_scEnc {t : State} (h : exec .scEnc s = .next t) :
    ∃ u, exec .scDec { t with bin0 := t.bout0, bin1 := t.bout1 } = .next u ∧ u.bout0 = s.bin0 ∧ u.status = 0 := by
  obtain ⟨p, hp, hfit, rfl⟩ := execScEnc_next h
  have htoken : p.length = (s.draws p.length).length := (s.draws_length p.length).symm
  have hcipher : (xorSeq p (s.draws p.length)).length = p.length := xorSeq_length htoken
  refine ⟨_, exec_scDec_of_length_eq rfl rfl (fitsBits_mono hcipher.le hfit) (hcipher.trans htoken), ?_, rfl⟩
  exact (congrArg some (xorSeq_xorSeq_cancel htoken)).trans hp.symm

end

/-- Settles O19: the token is the bits drawn, and where the source gives enough bits these are its first ones. -/
theorem encryptionUsesExactlyTheDrawnBits : Obligations.EncryptionUsesExactlyTheDrawnBits := by
  refine ⟨rfl, fun s p k later hp hfit hlen hsource => ?_, fun s p hp hfit => ?_⟩
  · exact ⟨xorSeq p k, exec_scEnc_of_source hp hfit hlen hsource, xorSeq_length hlen.symm, fun _ => xorSeq_getD hlen.symm⟩
  · have htoken : p.length = (s.draws p.length).length := (s.draws_length p.length).symm
    exact ⟨xorSeq p (s.draws p.length), exec_scEnc hp hfit, htoken.symm, s.draws_take_source p.length, xorSeq_length htoken,
      fun _ => xorSeq_getD htoken⟩

/-- Settles O20: the length check decides between the two ends. -/
theorem decryptionXorsOrFails : Obligations.DecryptionXorsOrFails :=
  ⟨rfl,
    fun _ c k hc hk hfit hlen =>
      ⟨xorSeq c k, exec_scDec_of_length_eq hc hk hfit hlen, xorSeq_length hlen, fun _ => xorSeq_getD hlen⟩,
    fun _ _ _ => exec_scDec_of_length_ne⟩

/-- Settles O21: the second xor undoes the first, and with one pad both operations compute the same xor. -/
theorem decryptionInvertsEncryption : Obligations.DecryptionInvertsEncryption :=
  ⟨fun _ _ => xorSeq_xorSeq_cancel, fun _ _ => exec_scDec_of_exec_scEnc, fun _ _ _ _ hp hk hfit hlen hsource =>
    ⟨_, _, exec_scEnc_of_source hp hfit hlen hsource, exec_scDec_of_length_eq hp hk hfit hlen.symm, rfl⟩⟩

end Sys2Proof.Machine
end

section
/-! How the four operations of the Huffman encoder end, each rule from the operand forms and the end of an operation
(spec/43_huffman_encoder.md R132, R139, R142, R144). -/

namespace Sys2Proof.Machine

section
variable {s : State}

theorem exec_hufFreq {l : Symbols} (hl : s.sin = some l) (hfit : fitsSyms s.caps l.length = true)
    (hcount : fitsCount s.caps l.length = true) :
    exec .hufFreq s = .next { s with ft := some (countSymbols l), status := 0, busy := false } :=
  (State.withSin_some hl hfit).trans (conclude_ok (overUnless_eq_none.2 hcount))

theorem exec_hufTree_of_buildTree_eq_ok {c : FreqTable} {n : HuffmanNode} (hc : s.ft = some c)
    (hfit : fitsCounts s.caps c = true) (hn : buildTree c = .ok n) (hroot : fitsCount s.caps n.frequency = true) :
    exec .hufTree s = .next { s with tree := some n, status := 0, busy := false } := by
  refine (State.withFt_some hc hfit).trans ?_
  rw [hn]
  exact conclude_ok (overUnless_eq_none.2 hroot)

/-- EmptyAlphabet takes the value of TREE away (R33, R138). -/
theorem exec_hufTree_of_buildTree_eq_error {c : FreqTable} (hc : s.ft = some c) (hfit : fitsCounts s.caps c = true)
    (herror : buildTree c = .error .emptyAlphabet) :
    exec .hufTree s = .next { s with tree := none, status := 5, busy := false } := by
  refine (State.withFt_some hc hfit).trans ?_
  rw [herror]
  rfl

theorem exec_hufCodes {n : HuffmanNode} (hn : s.tree = some n) :
    exec .hufCodes s = .next { s with ct := some (assignCodes n), status := 0, busy := false } :=
  State.withTree_some hn

theorem exec_hufEnc_of_codes {l : Symbols} {c : CodeTable} (hl : s.sin = some l) (hc : s.ct = some c)
    (hfit : fitsSyms s.caps l.length = true) (hcodes : ∀ v ∈ l, (codeOf c v).isSome = true)
    (hout : fitsBits s.caps (l.flatMap fun v => (codeOf c v).getD []).length = true) :
    exec .hufEnc s = .next { s with
      bout0 := some (l.flatMap fun v => (codeOf c v).getD [])
      status := 0
      busy := false } := by
  refine (State.withSin_some hl hfit).trans ((State.withCt_some hc).trans ?_)
  rw [encodeSymbols_ok hcodes]
  exact conclude_ok (overUnless_eq_none.2 hout)

theorem exec_hufEnc_of_unknown {l : Symbols} {c : CodeTable} (hl : s.sin = some l) (hc : s.ct = some c)
    (hfit : fitsSyms s.caps l.length = true) (hunknown : ∃ v ∈ l, codeOf c v = none) :
    exec .hufEnc s = .next { s with bout0 := none, status := 3, busy := false } := by
  refine (State.withSin_some hl hfit).trans ((State.withCt_some hc).trans ?_)
  rw [encodeSymbols_unknown hunknown]
  rfl

end

/-- Settles O22: the table written is that of the stream's counts. -/
theorem frequencyTableCountsOccurrences : Obligations.FrequencyTableCountsOccurrences := by
  refine ⟨rfl, fun s l hl hfit hcount => ⟨countSymbols l, exec_hufFreq hl hfit hcount, fun v => ?_, countSymbols_sum l⟩⟩
  rw [countOf_countSymbols, List.count_eq_length_filter]
  simp only [beq_eq_decide]

/-- Settles O30: the walk records the path to each leaf, and a single Leaf's symbol alone has a code, the one bit 0. -/
theorem codesAreThePathsToTheLeaves : Obligations.CodesAreThePathsToTheLeaves := by
  refine ⟨rfl, fun s f l r htree hn => ?_, fun s f v htree => ?_⟩
  · exact ⟨_, exec_hufCodes htree, codeOf_assignCodes_internal hn⟩
  · refine ⟨_, exec_hufCodes htree, ?_, fun w hw => ?_⟩
    · rw [codeOf_assignCodes_leaf, if_pos rfl]
    · rw [codeOf_assignCodes_leaf, if_neg hw]

/-- Settles O32: whether every symbol has a code decides between the two ends. -/
theorem encodingConcatenatesCodesOrFails : Obligations.EncodingConcatenatesCodesOrFails :=
  ⟨rfl, fun _ _ _ => exec_hufEnc_of_codes, fun _ _ _ => exec_hufEnc_of_unknown⟩

end Sys2Proof.Machine
end

section
/-! Selection, one turn of the merge loop, and the trees of the smallest alphabets (spec/43_huffman_encoder.md R134 to R138). -/

namespace Sys2Proof.Machine

/-! ### Selection and one turn of the loop -/

/-- The order of R134 without equality: a lower frequency, or the same frequency and a lower id. -/
def Candidate.below (a b : Candidate) : Prop :=
  a.tree.frequency < b.tree.frequency ∨ (a.tree.frequency = b.tree.frequency ∧ a.id < b.id)

theorem Candidate.below_of_atMost {a b : Candidate} (h : a.atMost b = true) (hid : a.id ≠ b.id) : a.below b := by
  have := Candidate.atMost_iff.1 h
  unfold Candidate.below
  omega

/-- Among nodes with pairwise different ids the node selected is strictly below every node that remains (R134). -/
theorem selectLeast_below {x : Candidate} {rest : List Candidate} (hids : ((x :: rest).map Candidate.id).Nodup) :
    ∀ c ∈ (selectLeast x rest).2, (selectLeast x rest).1.below c := by
  intro c hc
  have hnodup := ((selectLeast_perm x rest).map Candidate.id).nodup_iff.2 hids
  rw [List.map_cons, List.nodup_cons] at hnodup
  have hid : (selectLeast x rest).1.id ≠ c.id := fun h => hnodup.1 (h ▸ List.mem_map_of_mem hc)
  exact Candidate.below_of_atMost (selectLeast_atMost x rest c hc) hid

/-- Settles O24: the ids tell nodes of one frequency apart. -/
theorem selectionTakesTheLeastNode : Obligations.SelectionTakesTheLeastNode := fun x rest hids =>
  ⟨selectLeast_perm x rest, selectLeast_below hids⟩

/-- A turn of the loop merges the node strictly below all others with the one strictly below all but it (R135). -/
theorem mergeLoop_merges {steps nextId : Nat} {x y a b : Candidate} {ys rest : List Candidate}
    (hperm : (a :: b :: rest).Perm (x :: y :: ys)) (ha : ∀ c ∈ b :: rest, a.below c) (hb : ∀ c ∈ rest, b.below c) :
    ∃ others, others.Perm rest ∧
      mergeLoop (steps + 1) nextId x (y :: ys) = mergeLoop steps (nextId + 1) (mergeNodes nextId a b) others := by
  obtain ⟨hfirst, hremain⟩ := selectLeast_eq hperm ha
  cases hr : (selectLeast x (y :: ys)).2 with
  | nil => exact absurd (hr ▸ hremain) (by simp)
  | cons z zs =>
    obtain ⟨hsecond, hothers⟩ := selectLeast_eq (hr ▸ hremain).symm hb
    exact ⟨(selectLeast z zs).2, hothers, by simp [mergeLoop, hr, hfirst, hsecond]⟩

/-- Settles O25: two selections, then the merge. -/
theorem oneMergeJoinsTheTwoLeastNodes : Obligations.OneMergeJoinsTheTwoLeastNodes := fun _ _ _ _ _ _ _ _ => mergeLoop_merges

/-! ### The trees of an alphabet of no, one or two symbols -/

section
variable {t : FreqTable}

/-- The node that a table gives for a symbol before any merge (R133). -/
def leafCandidate (t : FreqTable) (v : Symbol) : Candidate := { id := v.toNat, tree := .leaf v (countOf t v) }

theorem leafCandidates_eq (t : FreqTable) : leafCandidates t = (nonzeroSymbols t).map (leafCandidate t) := rfl

/-- A list that holds each symbol of non-zero count once, and no other, has the symbols the leaves are made of (R133). -/
theorem nonzeroSymbols_perm {l : Symbols} (hl : l.Nodup) (hpos : ∀ v ∈ l, 0 < countOf t v)
    (hzero : ∀ v ∉ l, countOf t v = 0) : l.Perm (nonzeroSymbols t) := by
  refine (List.perm_ext_iff_of_nodup hl (nonzeroSymbols_nodup t)).2 fun v => ?_
  rw [mem_nonzeroSymbols]
  refine ⟨hpos v, fun hv => ?_⟩
  by_contra hnot
  exact hv.ne' (hzero v hnot)

theorem buildTree_of_empty (h : ∀ v, countOf t v = 0) : buildTree t = .error .emptyAlphabet := by
  rw [buildTree, leafCandidates_eq_nil.2 h]

/-- With one leaf the loop does not run (R137). -/
theorem buildTree_of_single {v : Symbol} (hv : 0 < countOf t v) (hother : ∀ u, u ≠ v → countOf t u = 0) :
    buildTree t = .ok (.leaf v (countOf t v)) := by
  have hsymbols : [v].Perm (nonzeroSymbols t) :=
    nonzeroSymbols_perm (List.nodup_singleton v) (by simpa using hv) (by simpa using hother)
  rw [buildTree, leafCandidates_eq, hsymbols.symm.eq_singleton]
  rfl

/-- Two leaves are merged in the one turn of the loop, the one strictly below selected first (R135). -/
theorem buildTree_of_pair {a b : Candidate} (hperm : [a, b].Perm (leafCandidates t)) (hlt : a.below b) :
    buildTree t = .ok (mergeNodes 256 a b).tree := by
  obtain ⟨x, y, hleaves⟩ := List.length_eq_two.1 hperm.length_eq.symm
  rw [hleaves] at hperm
  obtain ⟨_, _, hturn⟩ :=
    mergeLoop_merges (steps := 0) (nextId := 256) hperm (fun c hc => List.mem_singleton.1 hc ▸ hlt) (by simp)
  rw [buildTree, hleaves]
  exact congrArg Except.ok hturn

/-- Of two symbols the lower by (count, value) becomes the right leaf (R135, R70). -/
theorem buildTree_of_two {v w : Symbol} (hv : 0 < countOf t v) (hne : v ≠ w)
    (hlt : countOf t v < countOf t w ∨ (countOf t v = countOf t w ∧ v.toNat < w.toNat))
    (hother : ∀ u, u ≠ v → u ≠ w → countOf t u = 0) :
    buildTree t = .ok (.internal (countOf t v + countOf t w) (.leaf w (countOf t w)) (.leaf v (countOf t v))) := by
  have hw : 0 < countOf t w := by omega
  have hsymbols : [v, w].Perm (nonzeroSymbols t) :=
    nonzeroSymbols_perm (by simpa using hne) (by simpa using ⟨hv, hw⟩) (by simpa using hother)
  exact buildTree_of_pair (hsymbols.map (leafCandidate t)) hlt

end

/-- Settles O29: a table of zeros gives no leaf. -/
theorem emptyAlphabetIsAnError : Obligations.EmptyAlphabetIsAnError := fun _ _ hc hfit hzero =>
  exec_hufTree_of_buildTree_eq_error hc hfit (buildTree_of_empty hzero)

/-- Settles O28: the root frequency is the one count, which fits. -/
theorem singleSymbolTreeIsALeaf : Obligations.SingleSymbolTreeIsALeaf := fun _ _ v hc hfit hv hother =>
  exec_hufTree_of_buildTree_eq_ok hc hfit (buildTree_of_single hv hother) (fitsCounts_iff.1 hfit v)

/-- Settles O27: the lower leaf is selected first and so stands right. -/
theorem twoSymbolTreePutsTheRarerRight : Obligations.TwoSymbolTreePutsTheRarerRight :=
  fun _ _ _ _ hc hfit hroot hv hne hlt hother =>
    exec_hufTree_of_buildTree_eq_ok hc hfit (buildTree_of_two hv hne hlt hother) hroot

/-- Settles O26: a merge keeps the leaves and the sums, and the root frequency is the sum of all counts, which fits. -/
theorem treeHasOneLeafForEachSymbolPresent : Obligations.TreeHasOneLeafForEachSymbolPresent := by
  refine ⟨rfl, fun s t hc hfit hsum hleaf => ?_⟩
  obtain ⟨n, hn, hroot⟩ := exists_buildTree hleaf
  obtain ⟨hleaves, hinternals, hsums, _⟩ := buildTree_ok hn
  exact ⟨n, exec_hufTree_of_buildTree_eq_ok hc hfit hn (hroot.symm ▸ hsum), hleaves, hinternals, hsums, hroot⟩

end Sys2Proof.Machine
end

section
/-! The codes of a tree with an Internal root: which symbols have one, their lengths, that none is a prefix of another, and the
Kraft sum (spec/43_huffman_encoder.md R145). -/

namespace Sys2Proof.Machine

/-! ### Codes as paths -/

section
variable {f : Nat} {l r : HuffmanNode} {v w : Symbol} {c d : Bits}

/-- Exactly the symbols of the tree have a code (R140). -/
theorem codeOf_assignCodes_isSome_iff (hn : (HuffmanNode.internal f l r).symbols.Nodup) :
    (codeOf (assignCodes (.internal f l r)) v).isSome = true ↔ v ∈ (HuffmanNode.internal f l r).symbols := by
  rw [Option.isSome_iff_exists]
  constructor
  · rintro ⟨c, hc⟩
    obtain ⟨g, hpath⟩ := (codeOf_assignCodes_internal hn v c).1 hc
    exact HuffmanNode.mem_symbols_of_follow hpath
  · intro hv
    obtain ⟨c, g, hpath⟩ := HuffmanNode.exists_path hv
    exact ⟨c, (codeOf_assignCodes_internal hn v c).2 ⟨g, hpath⟩⟩

/-- A code passes at most every Internal node (R145 a). -/
theorem codeOf_assignCodes_length_le (hn : (HuffmanNode.internal f l r).symbols.Nodup)
    (hc : codeOf (assignCodes (.internal f l r)) v = some c) : c.length ≤ (HuffmanNode.internal f l r).internals := by
  obtain ⟨g, hpath⟩ := (codeOf_assignCodes_internal hn v c).1 hc
  exact HuffmanNode.follow_length hpath

/-- No path leads on from a leaf, so paths to leaves of different symbols are no prefixes of each other (R145 b). -/
theorem HuffmanNode.not_prefix_of_follow {n : HuffmanNode} {g k : Nat} (hne : v ≠ w)
    (hc : n.follow c = some (.leaf v g)) (hd : n.follow d = some (.leaf w k)) : ¬ c <+: d := by
  rintro ⟨e, rfl⟩
  rw [HuffmanNode.follow_append hc] at hd
  cases e with
  | nil => simp [hne] at hd
  | cons b e => simp at hd

theorem codeOf_assignCodes_not_prefix (hn : (HuffmanNode.internal f l r).symbols.Nodup) (hne : v ≠ w)
    (hc : codeOf (assignCodes (.internal f l r)) v = some c) (hd : codeOf (assignCodes (.internal f l r)) w = some d) :
    ¬ c <+: d := by
  obtain ⟨g, hpath⟩ := (codeOf_assignCodes_internal hn v c).1 hc
  obtain ⟨k, hpath'⟩ := (codeOf_assignCodes_internal hn w d).1 hd
  exact HuffmanNode.not_prefix_of_follow hne hpath hpath'

end

/-! ### The Kraft sum -/

/-- What an entry of a code table adds to the Kraft sum, multiplied by 2^255. -/
def kraftWeight : Option Bits → Nat
  | none => 0
  | some c => 2 ^ (255 - c.length)

/-- The walk leaves the entries of symbols that the tree has not as they were. -/
theorem codeOf_walkCodes_of_not_mem {n : HuffmanNode} {v : Symbol} (hv : v ∉ n.symbols) (path : Bits) (t : CodeTable) :
    codeOf (walkCodes n path t) v = codeOf t v := by
  induction n generalizing path t with
  | leaf w f => rw [walkCodes, codeOf_recordCode, if_neg (by simpa [HuffmanNode.symbols] using hv)]
  | internal f l r ihl ihr =>
    obtain ⟨hvl, hvr⟩ := not_or.1 (mt List.mem_append.2 hv)
    rw [walkCodes, ihr hvr, ihl hvl]

/-- The codes recorded below a node weigh together what the path to the node weighs: each child of an Internal node takes half
(R145 c). -/
theorem sum_kraftWeight_walkCodes {n : HuffmanNode} (hn : n.symbols.Nodup) {path : Bits}
    (hlen : path.length + n.internals ≤ 255) (t : CodeTable) :
    (n.symbols.map fun v => kraftWeight (codeOf (walkCodes n path t) v)).sum = 2 ^ (255 - path.length) := by
  induction n generalizing path t with
  | leaf v f => simp [HuffmanNode.symbols, walkCodes, codeOf_recordCode, kraftWeight]
  | internal f l r ihl ihr =>
    obtain ⟨hl, hr, hdisjoint⟩ := List.nodup_append.1 hn
    rw [HuffmanNode.internals] at hlen
    have hleft : ∀ v ∈ l.symbols,
        codeOf (walkCodes (.internal f l r) path t) v = codeOf (walkCodes l (path ++ [false]) t) v :=
      fun v hv => codeOf_walkCodes_of_not_mem (fun hvr => hdisjoint v hv v hvr rfl) _ _
    have hhalf : 2 ^ (255 - path.length) = 2 ^ (255 - (path.length + 1)) + 2 ^ (255 - (path.length + 1)) := by
      rw [← Nat.two_mul, ← Nat.pow_succ']
      congr 1
      omega
    rw [HuffmanNode.symbols, List.map_append, List.sum_append, List.map_congr_left fun v hv => by rw [hleft v hv],
      ihl hl (by simp; omega), walkCodes, ihr hr (by simp; omega), hhalf]
    simp

/-- A sum over all symbols is the sum over those that add something. -/
theorem sum_map_allSymbols {weight : Symbol → Nat} {l : Symbols} (hl : l.Nodup) (hzero : ∀ v ∉ l, weight v = 0) :
    (allSymbols.map weight).sum = (l.map weight).sum := by
  have hinside : (allSymbols.filter (· ∈ l)).Perm l :=
    (List.perm_ext_iff_of_nodup (allSymbols_nodup.filter _) hl).2 fun v => by simp [mem_allSymbols]
  have houtside : ((allSymbols.filter (· ∉ l)).map weight).sum = 0 := by
    simpa [List.sum_eq_zero_iff, mem_allSymbols] using hzero
  rw [← List.sum_map_filter_add_sum_map_filter_not (· ∈ l) weight allSymbols, houtside, Nat.add_zero,
    (hinside.map weight).sum_eq]

/-- The codes of a whole tree weigh what the empty path weighs (R145 c). -/
theorem sum_kraftWeight_assignCodes {f : Nat} {l r : HuffmanNode} (hn : (HuffmanNode.internal f l r).symbols.Nodup) :
    (allSymbols.map fun v => kraftWeight (codeOf (assignCodes (.internal f l r)) v)).sum = 2 ^ 255 := by
  have hinternals := HuffmanNode.internals_symbols (.internal f l r)
  have hsymbols := symbols_length_le hn
  have hzero : ∀ v ∉ (HuffmanNode.internal f l r).symbols,
      kraftWeight (codeOf (assignCodes (.internal f l r)) v) = 0 := by
    intro v hv
    rw [assignCodes, codeOf_walkCodes_of_not_mem hv, codeOf_noCodes, kraftWeight]
  rw [sum_map_allSymbols hn hzero]
  exact sum_kraftWeight_walkCodes hn (path := []) (by simp; omega) noCodes

/-! ### Built trees -/

/-- A tree built from at least two symbols has an Internal root (R136). -/
theorem buildTree_eq_internal {t : FreqTable} {n : HuffmanNode} (h : buildTree t = .ok n)
    (htwo : 2 ≤ (nonzeroSymbols t).length) : ∃ f l r, n = .internal f l r := by
  cases n with
  | leaf v f =>
    have hone : (nonzeroSymbols t).length = 1 := (buildTree_symbols h).length_eq.symm
    omega
  | internal f l r => exact ⟨f, l, r, rfl⟩

/-- Settles O31: the codes are the paths to the leaves of an Internal root, and the leaves' symbols are those of non-zero count. -/
theorem builtCodesFormAPrefixCode : Obligations.BuiltCodesFormAPrefixCode := by
  intro t n hbuild htwo
  have hn : n.symbols.Nodup := buildTree_symbols_nodup hbuild
  obtain ⟨f, l, r, rfl⟩ := buildTree_eq_internal hbuild htwo
  refine ⟨fun v => ?_, fun v c hc => ?_, fun v w c d => codeOf_assignCodes_not_prefix hn, sum_kraftWeight_assignCodes hn⟩
  · rw [Bool.eq_iff_iff, codeOf_assignCodes_isSome_iff hn, (buildTree_symbols hbuild).mem_iff, mem_nonzeroSymbols,
      decide_eq_true_iff]
  · obtain ⟨hpos, hmax⟩ := codeTableLegal_iff.1 (assignCodes_legal hn) v c hc
    obtain ⟨_, hinternals, _⟩ := buildTree_ok hbuild
    have hpath := codeOf_assignCodes_length_le hn hc
    exact ⟨hpos, by omega, hmax⟩

end Sys2Proof.Machine
end

section
/-! The Huffman decoder (spec/44_huffman_decoder.md R160 to R164): how HUF.DEC ends, that a stream decodes code by code, and the
round trip through the encoder. Both a longer stream and the round trip rest on one equation, `decodeBits_append`. -/

namespace Sys2Proof.Machine

/-! ### How the operation ends -/

section
variable {s : State} {n : HuffmanNode} {b : Bits}

theorem exec_hufDec_of_decodeBits_eq_ok {out : Symbols} (hn : s.tree = some n) (hb : s.bin0 = some b)
    (hfit : fitsBits s.caps b.length = true) (hdecode : decodeBits n b = .ok out)
    (hout : fitsSyms s.caps out.length = true) :
    exec .hufDec s = .next { s with sout := some out, status := 0, busy := false } := by
  refine (State.withBin0_some hb hfit).trans ((State.withTree_some hn).trans ?_)
  rw [hdecode]
  exact conclude_ok (overUnless_eq_none.2 hout)

/-- An error of HUF.DEC takes the value of SOUT away (R33). -/
theorem exec_hufDec_of_decodeBits_eq_error {e : OpError} (hn : s.tree = some n) (hb : s.bin0 = some b)
    (hfit : fitsBits s.caps b.length = true) (hdecode : decodeBits n b = .error e) :
    exec .hufDec s = .next { s with sout := none, status := e.code, busy := false } := by
  refine (State.withBin0_some hb hfit).trans ((State.withTree_some hn).trans ?_)
  rw [hdecode]
  rfl

end

/-- What is no concatenation of paths to leaves is a truncated stream (R160). -/
theorem decodeBits_eq_error_of_not_paths {f : Nat} {l r : HuffmanNode} {b : Bits}
    (h : ¬ ∃ (paths : List Bits) (out : Symbols), b = paths.flatten ∧
      List.Forall₂ (fun c v => ∃ g : Nat, (HuffmanNode.internal f l r).follow c = some (.leaf v g)) paths out) :
    decodeBits (.internal f l r) b = .error .truncatedStream := by
  cases hdecode : decodeBits (.internal f l r) b with
  | ok out =>
    obtain ⟨paths, hpaths⟩ := decodeBits_ok hdecode
    exact absurd ⟨paths, out, hpaths⟩ h
  | error e => rw [decodeBits_internal_error hdecode]

/-- Settles O33: paths to leaves decode to the leaves' symbols, and nothing else decodes. -/
theorem decodingWalksToLeavesOrIsTruncated : Obligations.DecodingWalksToLeavesOrIsTruncated :=
  ⟨rfl, fun _ _ _ _ _ _ htree hb hfit hpaths => exec_hufDec_of_decodeBits_eq_ok htree hb hfit (decodeBits_paths hpaths),
    fun _ _ _ _ _ htree hb hfit hnot =>
      exec_hufDec_of_decodeBits_eq_error htree hb hfit (decodeBits_eq_error_of_not_paths hnot)⟩

/-- Settles O34: each bit of a single Leaf's stream is looked at by itself. -/
theorem singleLeafDecodingAcceptsOnlyZeros : Obligations.SingleLeafDecodingAcceptsOnlyZeros := by
  refine ⟨fun s v f n htree hb hbits hsyms => ?_, fun s v f b htree hb hfit hone => ?_⟩
  · have hfit : fitsBits s.caps (List.replicate n false).length = true := by rwa [List.length_replicate]
    have hout : fitsSyms s.caps (List.replicate n v).length = true := by rwa [List.length_replicate]
    exact exec_hufDec_of_decodeBits_eq_ok htree hb hfit (decodeSingle_zeros v n) hout
  · exact exec_hufDec_of_decodeBits_eq_error htree hb hfit (decodeSingle_one v hone)

/-! ### Streams in turn -/

/-- No symbols put in front of a result leave it as it is. -/
theorem map_nil_append (r : Except OpError Symbols) : r.map ([] ++ ·) = r := by cases r <;> rfl

/-- A symbol emitted in front of further symbols is a longer list of symbols in front of the rest. -/
theorem emit_map_append (v : Symbol) (out : Symbols) (r : Except OpError Symbols) :
    emit v (r.map (out ++ ·)) = r.map (v :: out ++ ·) := by
  cases r <;> rfl

/-- With a single Leaf, bits after a stream that decodes are decoded as if they stood alone (R161). -/
theorem decodeSingle_append {v : Symbol} {b : Bits} {out : Symbols} (h : decodeSingle v b = .ok out) (c : Bits) :
    decodeSingle v (b ++ c) = (decodeSingle v c).map (out ++ ·) := by
  induction b generalizing out with
  | nil =>
    cases h
    rw [List.nil_append, map_nil_append]
  | cons x rest ih =>
    cases x with
    | true => cases h
    | false =>
      obtain ⟨out', hrest, rfl⟩ := emit_eq_ok.1 h
      rw [List.cons_append, decodeSingle, ih hrest, emit_map_append]

/-- After paths to leaves the walk stands at the root again, so further bits are walked as if they stood alone (R160). -/
theorem walkBits_paths_append {f : Nat} {l r : HuffmanNode} {paths : List Bits} {out : Symbols}
    (h : List.Forall₂ (fun c v => ∃ g, (HuffmanNode.internal f l r).follow c = some (.leaf v g)) paths out) (c : Bits) :
    walkBits (.internal f l r) (.internal f l r) true (paths.flatten ++ c) =
      (walkBits (.internal f l r) (.internal f l r) true c).map (out ++ ·) := by
  induction h with
  | nil => rw [List.flatten_nil, List.nil_append, map_nil_append]
  | @cons p v paths out hp _ ih =>
    obtain ⟨g, hp⟩ := hp
    cases p with
    | nil => simp at hp
    | cons b p => rw [List.flatten_cons, List.append_assoc, walkBits_path hp, ih, emit_map_append]

/-- Bits after a stream that decodes are decoded as if they stood alone, an error included (R164). -/
theorem decodeBits_append {n : HuffmanNode} {b : Bits} {out : Symbols} (h : decodeBits n b = .ok out) (c : Bits) :
    decodeBits n (b ++ c) = (decodeBits n c).map (out ++ ·) := by
  cases n with
  | leaf v f => exact decodeSingle_append h c
  | internal f l r =>
    obtain ⟨paths, rfl, hpaths⟩ := decodeBits_ok h
    exact walkBits_paths_append hpaths c

/-- Settles O35: what the appended bits add stands behind the symbols of the first stream. -/
theorem appendedStreamsDecodeInTurn : Obligations.AppendedStreamsDecodeInTurn := by
  intro n b c l h k
  rw [decodeBits_append h]
  cases decodeBits n c <;> simp [Except.map]

/-! ### Round trip -/

/-- The empty stream decodes to no symbols, with either kind of root. -/
@[simp] theorem decodeBits_nil (n : HuffmanNode) : decodeBits n [] = .ok [] := by cases n <;> rfl

section
variable {n : HuffmanNode}

/-- The code of a symbol decodes to that symbol alone: `0` with a Leaf root (R141, R161), otherwise its path (R140, R160). -/
theorem decodeBits_code (hn : n.symbols.Nodup) {v : Symbol} {c : Bits} (hc : codeOf (assignCodes n) v = some c) :
    decodeBits n c = .ok [v] := by
  cases n with
  | leaf w f =>
    rw [codeOf_assignCodes_leaf] at hc
    split at hc
    · subst v
      cases hc
      rfl
    · cases hc
  | internal f l r =>
    have hpath := (codeOf_assignCodes_internal hn v c).1 hc
    simpa using decodeBits_paths (.cons hpath .nil)

/-- Every symbol of a tree has a code, with either kind of root (R140, R141). -/
theorem codeOf_assignCodes_isSome (hn : n.symbols.Nodup) {v : Symbol} (hv : v ∈ n.symbols) :
    (codeOf (assignCodes n) v).isSome = true := by
  cases n with
  | leaf w f =>
    obtain rfl : v = w := by simpa [HuffmanNode.symbols] using hv
    simp [codeOf_assignCodes_leaf]
  | internal f l r => exact (codeOf_assignCodes_isSome_iff hn).2 hv

/-- The codes of a stream decode to the stream: one code after the other (R163). -/
theorem decodeBits_codes (hn : n.symbols.Nodup) {l : Symbols} (hl : ∀ v ∈ l, v ∈ n.symbols) :
    decodeBits n (l.flatMap fun v => (codeOf (assignCodes n) v).getD []) = .ok l := by
  induction l with
  | nil => simp
  | cons v rest ih =>
    obtain ⟨c, hc⟩ := Option.isSome_iff_exists.1 (codeOf_assignCodes_isSome hn (hl v (by simp)))
    have hrest := ih fun w hw => hl w (by simp [hw])
    rw [List.flatMap_cons, hc, Option.getD_some, decodeBits_append (decodeBits_code hn hc), hrest]
    rfl

/-- The tree built from a stream's counts has every symbol of the stream (R130, R133). -/
theorem mem_symbols_of_buildTree_countSymbols {l : Symbols} (hbuild : buildTree (countSymbols l) = .ok n) {v : Symbol}
    (hv : v ∈ l) : v ∈ n.symbols := by
  rw [(buildTree_symbols hbuild).mem_iff, mem_nonzeroSymbols, countOf_countSymbols]
  exact List.count_pos_iff.2 hv

end

/-- A stream that is not empty has a tree (R136, R138). -/
theorem exists_buildTree_countSymbols {l : Symbols} (hl : l ≠ []) : ∃ n, buildTree (countSymbols l) = .ok n := by
  obtain ⟨v, hv⟩ := List.exists_mem_of_ne_nil l hl
  have hcount : 0 < countOf (countSymbols l) v := by rwa [countOf_countSymbols, List.count_pos_iff]
  obtain ⟨n, hn, _⟩ := exists_buildTree ⟨v, hcount⟩
  exact ⟨n, hn⟩

/-- Settles O36: the tree has a code for every symbol of the stream, and the codes decode one after the other. -/
theorem huffmanRoundTrip : Obligations.HuffmanRoundTrip := by
  intro s l hl hsin hcaps
  obtain ⟨n, hbuild⟩ := exists_buildTree_countSymbols hl
  have hn := buildTree_symbols_nodup hbuild
  have hsymbols := fun v => mem_symbols_of_buildTree_countSymbols (v := v) hbuild
  have hcodes := fun v hv => codeOf_assignCodes_isSome hn (hsymbols v hv)
  exact ⟨_, _, _, _, _,
    exec_hufFreq hsin (by simp [hcaps]) (by simp [hcaps]),
    exec_hufTree_of_buildTree_eq_ok rfl (by simp [hcaps]) hbuild (by simp [hcaps]),
    exec_hufCodes rfl,
    exec_hufEnc_of_codes hsin rfl (by simp [hcaps]) hcodes (by simp [hcaps]),
    exec_hufDec_of_decodeBits_eq_ok rfl rfl (by simp [hcaps]) (decodeBits_codes hn hsymbols) (by simp [hcaps]),
    rfl, rfl, rfl, rfl, rfl, rfl⟩

end Sys2Proof.Machine
end

section
/-! Failures (spec/60_exceptions.md R180, R181, spec/70_reset_and_hazards.md R188): a failed operation fails again, reading STATUS
shows whether the last operation failed, and with no host action left nothing happens. -/

namespace Sys2Proof.Machine

/-! ### Reissuing a failed operation -/

section
variable {s t : State} {i : Instr}

/-- STATUS is not 0 only after one of the operation's own errors (R32, R33). -/
theorem exec_failed_next (h : exec i s = .next t) (hfailed : t.status ≠ 0) :
    ∃ e ∈ errorsOf i, t = s.takeError (destinationsOf i) e := by
  obtain herror | ⟨u, rfl, _⟩ := exec_next h
  · exact herror
  · exact absurd u.complete_status hfailed

/-- UnknownSymbol means that a symbol of the stream has no code (R143). -/
theorem exists_codeOf_eq_none_of_encodeSymbols_eq_error {c : CodeTable} {l : Symbols} {e : OpError}
    (h : encodeSymbols c l = .error e) : ∃ v ∈ l, codeOf c v = none := by
  by_contra hnone
  have hcodes : ∀ v ∈ l, (codeOf c v).isSome = true := fun v hv =>
    Option.isSome_iff_ne_none.2 fun hv' => hnone ⟨v, hv, hv'⟩
  simp [encodeSymbols_ok hcodes] at h

end

/-- Settles O43: an error changes neither the operands it was found in nor their capacity, so it is found there again, and taking
it a second time changes nothing. -/
theorem failedOperationsFailAgain : Obligations.FailedOperationsFailAgain := by
  intro i s t h hfailed
  cases i with
  | bpPack | bpUnpack | scEnc | hufFreq | hufCodes =>
    obtain ⟨e, he, _⟩ := exec_failed_next h hfailed
    exact absurd he List.not_mem_nil
  | hamDecblk =>
    obtain ⟨b, hb, hfit, ⟨hlen, rfl⟩ | ⟨_, rfl⟩⟩ := execHamDecblk_next h
    · exact exec_hamDecblk_of_length_ne hb hfit hlen
    · exact absurd rfl hfailed
  | hamDec =>
    obtain ⟨b, hb, hfit, ⟨hlen, rfl⟩ | ⟨_, rfl⟩⟩ := execHamDec_next h
    · exact exec_hamDec_of_not_whole hb hfit hlen
    · exact absurd rfl hfailed
  | scDec =>
    obtain ⟨c, k, hc, hk, hfit, hfitToken, ⟨hlen, rfl⟩ | ⟨_, rfl⟩⟩ := execScDec_next h
    · exact exec_scDec_of_length_ne hc hk hfit hfitToken hlen
    · exact absurd rfl hfailed
  | hufTree =>
    obtain ⟨c, hc, hfit, ⟨hnil, rfl⟩ | ⟨_, _, _, rfl⟩⟩ := execHufTree_next h
    · exact exec_hufTree_of_buildTree_eq_error hc hfit (by rw [buildTree, hnil])
    · exact absurd rfl hfailed
  | hufEnc =>
    obtain ⟨l, c, hl, hc, hfit, ⟨hunknown, rfl⟩ | ⟨_, _, _, rfl⟩⟩ := execHufEnc_next h
    · exact exec_hufEnc_of_unknown hl hc hfit (exists_codeOf_eq_none_of_encodeSymbols_eq_error hunknown)
    · exact absurd rfl hfailed
  | hufDec =>
    obtain ⟨b, n, hb, hn, hfit, ⟨e, hdecode, rfl⟩ | ⟨_, _, _, rfl⟩⟩ := execHufDec_next h
    · exact exec_hufDec_of_decodeBits_eq_error hn hb hfit hdecode
    · exact absurd rfl hfailed

/-! ### Reading STATUS -/

section
variable {s : State} {rest : List HostAction}

/-- An action allowed while BUSY is 1 is performed in every state (R200, log 7). -/
theorem step_of_allowedWhileBusy {a : HostAction} (hallowed : a.allowedWhileBusy = true) (hprogram : s.program = a :: rest) :
    step s = performAction a { s with program := rest } := by
  simp [step, hostStep, hprogram, hostAct, hallowed]

/-- STATUS always reads (R54, log 7). -/
theorem step_rd_status (hprogram : s.program = .rd .status :: rest) :
    step s = .next (({ s with program := rest } : State).noteRead .status (.status s.status)) :=
  step_of_allowedWhileBusy rfl hprogram

/-- A reading of STATUS that is noted is a failure unless it is 0 (R181). -/
theorem State.noteRead_status_noFailureRead {c : StatusCode} :
    (s.noteRead .status (.status c)).noFailureRead ↔ s.noFailureRead ∧ c = 0 := by
  simp [State.noFailureRead, or_imp, forall_and, statusOk]

end

/-- Settles O53: the read notes STATUS behind what has been read and leaves STATUS as it was. -/
theorem readingStatusShowsAFailure : Obligations.ReadingStatusShowsAFailure := fun _ _ hprogram =>
  ⟨_, step_rd_status hprogram, rfl, State.noteRead_status_noFailureRead⟩

/-! ### No host action left -/

/-- Settles O6: with nothing on the host's list the step takes its idle branch (log 18). -/
theorem idleBlockStartsNothing : Obligations.IdleBlockStartsNothing := by
  intro s hprogram
  rw [step, hostStep, hprogram]

end Sys2Proof.Machine
end

section
/-! Repeatability, reset and host actions while BUSY is 1 (spec/70_reset_and_hazards.md R200, R203, R207). Two runs of an operation on
agreeing sources read the same values, compute the same outcome and write the same results: one rule for each operand form and
one for the end of an operation. -/

namespace Sys2Proof.Machine

/-! ### Two runs of one operation -/

/-- Two runs of an operation with the destinations `dests` end alike: in one refusal, or with one STATUS and one value, or none, in
each destination. -/
inductive EndAlike (dests : List Element) : Result → Result → Prop where
  | next {s t : State} (status : s.status = t.status) (results : ∀ e ∈ dests, s.sameAt t e) :
      EndAlike dests (.next s) (.next t)
  | refused (r : Refusal) : EndAlike dests (.refused r) (.refused r)

/-- Two states in which an element holds no value agree at it. -/
theorem State.sameAt_of_holds_eq_false {s t : State} {e : Element} (hs : s.holds e = false) (ht : t.holds e = false) :
    s.sameAt t e := by
  cases e <;> exact (Option.not_isSome_iff_eq_none.1 (ne_true_of_eq_false hs)).trans
    (Option.not_isSome_iff_eq_none.1 (ne_true_of_eq_false ht)).symm

theorem State.complete_sameAt_complete {s t : State} {e : Element} (h : s.sameAt t e) : s.complete.sameAt t.complete e :=
  State.complete_sameAt (State.sameAt_symm (State.complete_sameAt (State.sameAt_symm h)))

namespace EndAlike

section
variable {s t : State} {dests : List Element}

theorem readSource {α : Type} {e : Element} {content content' : Option α} {fits fits' : α → Bool} {k k' : α → Result}
    (hcontent : content = content') (hfits : fits = fits') (hk : ∀ a, content = some a → EndAlike dests (k a) (k' a)) :
    EndAlike dests (readSource e content fits k) (readSource e content' fits' k') := by
  subst hcontent hfits
  cases content with
  | none => exact .refused _
  | some a =>
    cases hfit : fits a with
    | true =>
      rw [readSource_some rfl hfit, readSource_some rfl hfit]
      exact hk a rfl
    | false =>
      rw [readSource_over rfl hfit, readSource_over rfl hfit]
      exact .refused _

theorem withBin0 {k k' : Bits → Result} (hcaps : s.caps = t.caps) (hsame : s.sameAt t .bin0)
    (hk : ∀ b, s.bin0 = some b → EndAlike dests (k b) (k' b)) : EndAlike dests (s.withBin0 k) (t.withBin0 k') :=
  readSource hsame (by rw [hcaps]) hk

theorem withBin1 {k k' : Bits → Result} (hcaps : s.caps = t.caps) (hsame : s.sameAt t .bin1)
    (hk : ∀ b, EndAlike dests (k b) (k' b)) : EndAlike dests (s.withBin1 k) (t.withBin1 k') :=
  readSource hsame (by rw [hcaps]) fun b _ => hk b

theorem withSin {k k' : Symbols → Result} (hcaps : s.caps = t.caps) (hsame : s.sameAt t .sin)
    (hk : ∀ l, EndAlike dests (k l) (k' l)) : EndAlike dests (s.withSin k) (t.withSin k') :=
  readSource hsame (by rw [hcaps]) fun l _ => hk l

theorem withFt {k k' : FreqTable → Result} (hcaps : s.caps = t.caps) (hsame : s.sameAt t .ft)
    (hk : ∀ c, EndAlike dests (k c) (k' c)) : EndAlike dests (s.withFt k) (t.withFt k') :=
  readSource hsame (by rw [hcaps]) fun c _ => hk c

theorem withTree {k k' : HuffmanNode → Result} (hsame : s.sameAt t .tree) (hk : ∀ n, EndAlike dests (k n) (k' n)) :
    EndAlike dests (s.withTree k) (t.withTree k') :=
  readSource hsame rfl fun n _ => hk n

theorem withCt {k k' : CodeTable → Result} (hsame : s.sameAt t .ct) (hk : ∀ c, EndAlike dests (k c) (k' c)) :
    EndAlike dests (s.withCt k) (t.withCt k') :=
  readSource hsame rfl fun c _ => hk c

/-- The end of an operation: the same error leaves no destination a value, the same results are written or exceed a capacity
alike. -/
theorem conclude {α : Type} {outcome outcome' : Except OpError α} {exceeds exceeds' : α → Option Element}
    {put : α → State → State} (houtcome : outcome = outcome') (hexceeds : exceeds = exceeds')
    (hput : ∀ a, ∀ e ∈ dests, (put a s).sameAt (put a t) e) :
    EndAlike dests (conclude dests outcome exceeds put s) (conclude dests outcome' exceeds' put t) := by
  subst houtcome hexceeds
  cases outcome with
  | error err =>
    exact .next rfl fun e he =>
      State.sameAt_of_holds_eq_false (s.takeError_holds dests err he) (t.takeError_holds dests err he)
  | ok a =>
    cases hover : exceeds a with
    | none =>
      rw [conclude_ok hover, conclude_ok hover]
      exact .next rfl fun e he => State.complete_sameAt_complete (hput a e he)
    | some d =>
      rw [conclude_exceeds hover, conclude_exceeds hover]
      exact .refused _

end

end EndAlike

section
variable {s t : State} {i : Instr}

/-- Both runs read the same operands, so they reach the same outcome and capacities and write it to the same destinations; SC.ENC's
outcome is that of the bits drawn for BIN0 as well (R121, R207). -/
theorem exec_endAlike (hcaps : s.caps = t.caps) (hsources : ∀ e ∈ sourcesOf i, s.sameAt t e)
    (hdraws : i = .scEnc → ∀ b : Bits, s.bin0 = some b → s.draws b.length = t.draws b.length) :
    EndAlike (destinationsOf i) (exec i s) (exec i t) := by
  cases i with
  | hamDecblk | hamDec =>
    exact .withBin0 hcaps (hsources _ (by decide)) fun b _ => .conclude rfl rfl (by simp [destinationsOf, State.sameAt, putBlocks])
  | bpPack =>
    exact .withBin0 hcaps (hsources _ (by decide)) fun b _ => .conclude rfl (by rw [hcaps]) (by simp [destinationsOf, State.sameAt])
  | bpUnpack =>
    exact .withSin hcaps (hsources _ (by decide)) fun l => .conclude rfl (by rw [hcaps]) (by simp [destinationsOf, State.sameAt])
  | scEnc =>
    exact .withBin0 hcaps (hsources _ (by decide)) fun b hb =>
      .conclude (by rw [hdraws rfl b hb]) rfl (by simp [destinationsOf, State.sameAt, putCipher])
  | scDec =>
    exact .withBin0 hcaps (hsources _ (by decide)) fun b _ => .withBin1 hcaps (hsources _ (by decide)) fun k =>
      .conclude rfl rfl (by simp [destinationsOf, State.sameAt])
  | hufFreq =>
    exact .withSin hcaps (hsources _ (by decide)) fun l => .conclude rfl (by rw [hcaps]) (by simp [destinationsOf, State.sameAt])
  | hufTree =>
    exact .withFt hcaps (hsources _ (by decide)) fun c => .conclude rfl (by rw [hcaps]) (by simp [destinationsOf, State.sameAt])
  | hufCodes =>
    exact .withTree (hsources _ (by decide)) fun n => .conclude rfl rfl (by simp [destinationsOf, State.sameAt])
  | hufEnc =>
    exact .withSin hcaps (hsources _ (by decide)) fun l => .withCt (hsources _ (by decide)) fun c =>
      .conclude rfl (by rw [hcaps]) (by simp [destinationsOf, State.sameAt])
  | hufDec =>
    exact .withBin0 hcaps (hsources _ (by decide)) fun b _ => .withTree (hsources _ (by decide)) fun n =>
      .conclude rfl (by rw [hcaps]) (by simp [destinationsOf, State.sameAt])

end

/-- Settles O42: two runs on the same sources end alike. -/
theorem resultsDependOnlyOnSources : Obligations.ResultsDependOnlyOnSources := by
  intro i s t hcaps hsources hdraws
  have halike : EndAlike (destinationsOf i) (exec i s) (exec i t) := exec_endAlike hcaps hsources hdraws
  generalize exec i s = x, exec i t = y at halike ⊢
  cases halike with
  | next hstatus hresults => exact ⟨hstatus, hresults⟩
  | refused r => rfl

/-! ### Reset and host actions while BUSY is 1 -/

section
variable {s : State} {a : HostAction} {rest : List HostAction}

/-- Reset is performed whatever BUSY is (R200). -/
theorem step_reset (hprogram : s.program = .reset :: rest) : step s = .next (applyReset { s with program := rest }) :=
  step_of_allowedWhileBusy rfl hprogram

/-- While BUSY is 1 the host may reset the block and read BUSY and STATUS, and nothing else (log 7). -/
theorem HostAction.allowedWhileBusy_iff : a.allowedWhileBusy = true ↔ a = .reset ∨ a = .rd .busy ∨ a = .rd .status := by
  constructor
  · intro h
    unfold HostAction.allowedWhileBusy at h
    split at h
    · exact .inl rfl
    · exact .inr (.inl rfl)
    · exact .inr (.inr rfl)
    · nomatch h
  · rintro (rfl | rfl | rfl) <;> rfl

/-- An action that is not allowed while BUSY is 1 is refused then (R203, U5). -/
theorem step_of_busy (hbusy : s.busy = true) (hallowed : a.allowedWhileBusy = false) (hprogram : s.program = a :: rest) :
    step s = .refused .hostActsWhileBusy := by
  simp [step, hostStep, hprogram, hostAct, hbusy, hallowed]

end

/-- Settles O8: reset is allowed whatever BUSY is, and the state it leaves has no host action to perform when it was the last. -/
theorem resetActsInEveryState : Obligations.ResetActsInEveryState :=
  ⟨fun _ _ => step_reset, fun _ hprogram => ⟨_, step_reset hprogram, idleBlockStartsNothing _ rfl⟩⟩

/-- Settles O52: the three actions that are excluded are the only ones allowed while BUSY is 1. -/
theorem hostActionWhileBusyIsRefused : Obligations.HostActionWhileBusyIsRefused := by
  intro s a rest hbusy hprogram hreset hrdBusy hrdStatus
  have hallowed : a.allowedWhileBusy = false := Bool.eq_false_iff.2 fun h => by
    obtain h | h | h := HostAction.allowedWhileBusy_iff.1 h
    · exact hreset h
    · exact hrdBusy h
    · exact hrdStatus h
  exact step_of_busy hbusy hallowed hprogram

end Sys2Proof.Machine
end
